-- ==== Sys2Proof/Word.lean ====
section
/-! DEFINITION. The word types of SAMETHING-AFSK: 32-bit host words, command words and samples
(10_state.md R20, 30_encoding.md R80, 20_memory.md R63), and the bytes of the frame buffer (R45). -/

namespace Sys2Proof

/-- A host word, a command word or a sample, each moved as 32 bits in parallel (R20, R63, R80). -/
abbrev Word := BitVec 32

/-- A byte of the frame buffer (R45). -/
abbrev Byte := BitVec 8

end Sys2Proof
end

