-- ==== Sys2Proof/Config.lean ====
section
/-! DEFINITION. What an implementation fixes (00_scope.md section 3) and the values the spec leaves
open: the parameters R5 to R14, the configuration (tone table and samples per bit), and the free
values, which are constants without a body. -/

namespace Sys2Proof

/-- `FS`, samples per second (R5). -/
def fs : Nat := 44100

/-- `F_MARK` = 2083.3 Hz, in tenths of a hertz, the literal taken exactly (R6). -/
def fMarkTenths : Nat := 20833

/-- `F_SPACE` = 1562.5 Hz, in tenths of a hertz, the literal taken exactly (R7). -/
def fSpaceTenths : Nat := 15625

/-- `BAUD` = 520.83 bit/s, in hundredths; nothing computes with it at run time (R8). -/
def baudHundredths : Nat := 52083

/-- `BUF_BYTES`, the size of the frame buffer (R11). -/
def bufBytes : Nat := 512

/-- `CMDQ_DEPTH`, the capacity of the command queue (R12). -/
def cmdqDepth : Nat := 16

/-- `SPB`, samples per bit-tone and per silence unit: 84, and "85 is the only other value in
question" (R9, 90_conflicts.md C1). -/
inductive SamplesPerBit
  | s84
  | s85
deriving DecidableEq, Repr

/-- The number of samples. -/
def SamplesPerBit.toNat : SamplesPerBit → Nat
  | .s84 => 84
  | .s85 => 85

/-- The configuration a model takes as arguments: `SPB` (R9) and the tone table `TONE_ROM`, one
list of `SPB` binary32 words per tone (R14, R46). -/
structure Config where
  spb : SamplesPerBit
  /-- `TONE_ROM[0]`. -/
  space : List Word
  /-- `TONE_ROM[1]`. -/
  mark : List Word
deriving DecidableEq, Repr

/-- `TONE_ROM[t]`: tone 1 is mark, tone 0 is space (R14). -/
def Config.rom (c : Config) (t : BitVec 1) : List Word :=
  if t = 1#1 then c.mark else c.space

/-- The table has `2 * SPB` words (R46). -/
def Config.wf (c : Config) : Bool :=
  c.space.length == c.spb.toNat && c.mark.length == c.spb.toNat

/-- FREE VALUE. The byte that the `n`-th drawing of the frame buffer put at an address: "A model
gives each such byte one arbitrary value, drawn at reset and kept until a write" (R69, R220;
93_implementation_defined.md U1). It has no body, so nothing can be proved of it. -/
opaque Config.bufDraw : Nat → Nat → Byte

/-- `BLOCK_BASE`, where the platform puts the block: a parameter whose value no rule uses (R68). -/
opaque Config.blockBase : Nat

end Sys2Proof
end

