-- ==== Sys2Proof/Syntax.lean ====
section
/-! DEFINITION. The commands of spec/opcode_table.json, one constructor per row, with the operand
fields at the widths the encoding gives them (30_encoding.md R81 to R85). -/

namespace Sys2Proof

/-- A command of the block (R86). -/
inductive Instr
  /-- `MOD base, len`: modulate a buffer range (41_afsk_modulator.md R103). -/
  | mod (base : BitVec 9) (len : BitVec 10)
  /-- `BIT v`: emit one bit-tone (R105). -/
  | bit (v : BitVec 1)
  /-- `SIL`: emit one silence unit (42_sample_synthesizer.md R126). -/
  | sil
  /-- `ATTN d`: the attention segment of `d` seconds (R127). -/
  | attn (d : BitVec 8)
deriving DecidableEq, Repr

end Sys2Proof
end

