-- ==== Sys2Proof/WellFormed.lean ====
section
/-! DEFINITION. Which commands are legal beyond their field widths: a MOD whose range ends inside
the buffer (30_encoding.md R81, R88). The other three have no illegal operand (R82 to R84). -/

namespace Sys2Proof

/-- `base + len <= BUF_BYTES`, the sum without wrap (R17, R87). -/
def rangeInBuffer (base : BitVec 9) (len : BitVec 10) : Bool :=
  decide (base.toNat + len.toNat ≤ bufBytes)

/-- The legal commands (R88). -/
def Instr.wellFormed : Instr → Bool
  | .mod base len => rangeInBuffer base len
  | .bit _ => true
  | .sil => true
  | .attn _ => true

end Sys2Proof
end

