-- ==== Sys2Proof/Decode.lean ====
section
/-! DEFINITION. The decoder of command words, total, rejecting by error code in the order of
30_encoding.md R87; after it the encoder (R81 to R84), and the host's table-word entry. -/

namespace Sys2Proof

/-- The error codes of 60_exceptions.md R201. The first three come from `decode`, the fourth from a
full queue, the fifth from a locked buffer. -/
inductive CmdError
  | illegalOpcode
  | reservedBits
  | bufRange
  | cmdqOverflow
  | bufLocked
deriving DecidableEq, Repr

/-- The 4-bit code of an error in STATUS.ERRCODE (R201). -/
def CmdError.code : CmdError → BitVec 4
  | .illegalOpcode => 1#4
  | .reservedBits => 2#4
  | .bufRange => 3#4
  | .cmdqOverflow => 4#4
  | .bufLocked => 5#4

/-- Bits [31:28] of a command word (R80). -/
def opcodeOf (c : Word) : BitVec 4 := c.extractLsb' 28 4

/-- Format M: reserved bits [27:25] and [15:10], then the range check (R81, R87). -/
def decodeMod (c : Word) : Except CmdError Instr :=
  if c.extractLsb' 25 3 ≠ 0#3 ∨ c.extractLsb' 10 6 ≠ 0#6 then .error .reservedBits
  else if rangeInBuffer (c.extractLsb' 16 9) (c.extractLsb' 0 10) then
    .ok (.mod (c.extractLsb' 16 9) (c.extractLsb' 0 10))
  else .error .bufRange

/-- Format B: reserved bits [27:1] (R82, R87). -/
def decodeBit (c : Word) : Except CmdError Instr :=
  if c.extractLsb' 1 27 ≠ 0#27 then .error .reservedBits else .ok (.bit (c.extractLsb' 0 1))

/-- Format S: reserved bits [27:0] (R83, R87). -/
def decodeSil (c : Word) : Except CmdError Instr :=
  if c.extractLsb' 0 28 ≠ 0#28 then .error .reservedBits else .ok .sil

/-- Format A: reserved bits [27:8] (R84, R87). -/
def decodeAttn (c : Word) : Except CmdError Instr :=
  if c.extractLsb' 8 20 ≠ 0#20 then .error .reservedBits else .ok (.attn (c.extractLsb' 0 8))

/-- R87: a word is a command or one error code, the opcode checked first, then the reserved bits,
then the range of a MOD. -/
def decode (c : Word) : Except CmdError Instr :=
  if opcodeOf c = 1#4 then decodeMod c
  else if opcodeOf c = 2#4 then decodeBit c
  else if opcodeOf c = 3#4 then decodeSil c
  else if opcodeOf c = 4#4 then decodeAttn c
  else .error .illegalOpcode

/-- The legal words of R88: those that `decode` accepts. -/
def legalWord (c : Word) : Bool :=
  match decode c with
  | .ok _ => true
  | .error _ => false

/-- The encodings of R81 to R84. -/
def encode : Instr → Word
  | .mod base len => 0x10000000#32 ||| (base.setWidth 32 <<< 16) ||| len.setWidth 32
  | .bit v => 0x20000000#32 ||| v.setWidth 32
  | .sil => 0x30000000#32
  | .attn d => 0x40000000#32 ||| d.setWidth 32

/-- The command word whose low `nbits` bits are those of `w`; the bits above are 0. -/
def tableWord (nbits w : Nat) : Word := BitVec.ofNat 32 (w % 2 ^ nbits)

/-- What the decoder reads from a word of the opcode table (every command is one 32-bit word, R89). -/
def decodeTableWord (nbits w : Nat) : Option Instr :=
  match decode (tableWord nbits w) with
  | .ok i => some i
  | .error _ => none

end Sys2Proof
end

