-- ==== Sys2Proof/Machine/ToneTable.lean ====
section
/-! DEFINITION. The default tone table (42_sample_synthesizer.md R122), the spec's binary32 bit
patterns as they stand there, and the two configurations made from it. -/

namespace Sys2Proof.Machine

/-- `TONE_ROM[0]`, `k` = 0 to 16 (R122). -/
def spaceRow0 : List Word := [
  0x00000000#32, 0x3E621547#32, 0x3EDC8105#32, 0x3F1E8AB0#32, 0x3F4701BA#32, 0x3F65A65A#32,
  0x3F78F566#32, 0x3F7FFAE8#32, 0x3F7A5E29#32, 0x3F686610#32, 0x3F4AF5A8#32, 0x3F2380E6#32,
  0x3EE7F49D#32, 0x3E7AE971#32, 0x3CCC3B73#32, 0xBE491D22#32, 0xBED0EA55#32]

/-- `TONE_ROM[0]`, `k` = 17 to 33 (R122). -/
def spaceRow1 : List Word := [
  0xBF197B3F#32, 0xBF42EE1F#32, 0xBF62C218#32, 0xBF776506#32, 0xBF7FD22C#32, 0xBF7B9F13#32,
  0xBF6B00CA#32, 0xBF4EC94B#32, 0xBF285D17#32, 0xBEF3434C#32, 0xBE89CAD7#32, 0xBD4C2B33#32,
  0x3E3004FC#32, 0x3EC53266#32, 0x3F145362#32, 0x3F3EBB80#32, 0x3F5FB9C0#32]

/-- `TONE_ROM[0]`, `k` = 34 to 50 (R122). -/
def spaceRow2 : List Word := [
  0x3F75AD47#32, 0x3F7F80B9#32, 0x3F7CB7F2#32, 0x3F6D761F#32, 0x3F527C05#32, 0x3F2D1E7D#32,
  0x3EFE6B45#32, 0x3E960B07#32, 0x3D990C17#32, 0xBE16D0D3#32, 0xBEB95B15#32, 0xBF0F13E9#32,
  0xBF3A6A86#32, 0xBF5C8DCE#32, 0xBF73CE6F#32, 0xBF7F069E#32, 0xBF7DA89A#32]

/-- `TONE_ROM[0]`, `k` = 51 to 67 (R122). -/
def spaceRow3 : List Word := [
  0xBF6FC5A9#32, 0xBF560D40#32, 0xBF31C456#32, 0xBF04B560#32, 0xBEA23357#32, 0xBDCBEA3A#32,
  0x3DFB0953#32, 0x3EAD6645#32, 0x3F09BDAC#32, 0x3F35FBE1#32, 0x3F593EC2#32, 0x3F71C8CA#32,
  0x3F7E63EC#32, 0x3F7E70E3#32, 0x3F71EF0B#32, 0x3F597C6A#32, 0x3F364DE5#32]

/-- `TONE_ROM[0]`, `k` = 68 to 84 (R122). -/
def spaceRow4 : List Word := [
  0x3F0A1FFF#32, 0x3EAE41D7#32, 0x3DFEA7EA#32, 0xBDC8490E#32, 0xBEA155DD#32, 0xBF045183#32,
  0xBF317047#32, 0xBF55CD24#32, 0xBF6F9CAB#32, 0xBF7D98BF#32, 0xBF7F10AF#32, 0xBF73F1ED#32,
  0xBF5CC8F8#32, 0xBF3ABA71#32, 0xBF0F74A3#32, 0xBEBA349B#32, 0xBE189E89#32]

/-- `TONE_ROM[0]`, `k` = 0 to 84; the last row only for `SPB` = 85 (R122). -/
def spaceRow : List Word :=
  spaceRow0 ++ spaceRow1 ++ spaceRow2 ++ spaceRow3 ++ spaceRow4

/-- `TONE_ROM[1]`, `k` = 0 to 16 (R122). -/
def markRow0 : List Word := [
  0x00000000#32, 0x3E95C008#32, 0x3F0F33A7#32, 0x3F470123#32, 0x3F6D671C#32, 0x3F7F09DC#32,
  0x3F7A5E8C#32, 0x3F5FCDB5#32, 0x3F31AA20#32, 0x3EE7F99C#32, 0x3E30AA8B#32, 0xBDFC2308#32,
  0xBED0E383#32, 0xBF283CBA#32, 0xBF595107#32, 0xBF7763D3#32, 0xBF7FD3CC#32]

/-- `TONE_ROM[1]`, `k` = 17 to 33 (R122). -/
def markRow1 : List Word := [
  0xBF71E40C#32, 0xBF4ECC98#32, 0xBF199F1C#32, 0xBEAE0460#32, 0xBD4C93A6#32, 0x3E7A37FE#32,
  0x3F046CB0#32, 0x3F3EB684#32, 0x3F685278#32, 0x3F7D9CF4#32, 0x3F7CB949#32, 0x3F65BB61#32,
  0x3F3AA5FF#32, 0x3EFE7B79#32, 0x3E62D2AF#32, 0xBD964FDB#32, 0xBEB947EF#32]

/-- `TONE_ROM[1]`, `k` = 34 to 50 (R122). -/
def markRow2 : List Word := [
  0xBF1E63D2#32, 0xBF52497B#32, 0xBF73CB04#32, 0xBF7FFA42#32, 0xBF75C66A#32, 0xBF5613E8#32,
  0xBF23A867#32, 0xBEC5D985#32, 0xBDCC5249#32, 0x3E485009#32, 0x3EF2A234#32, 0x3F35F207#32,
  0x3F62A960#32, 0x3F7B8DFC#32, 0x3F7E7288#32, 0x3F6B1640#32, 0x3F432A99#32]

/-- `TONE_ROM[1]`, `k` = 51 to 67 (R122). -/
def markRow3 : List Word := [
  0x3F0A2D5C#32, 0x3E8A34F1#32, 0xBCC07285#32, 0xBEA135F6#32, 0xBF1425B5#32, 0xBF4ABB8F#32,
  0xBF6F966C#32, 0xBF7F7D27#32, 0xBF790BBC#32, 0xBF5CD26C#32, 0xBF2D491E#32, 0xBEDD303D#32,
  0xBE18EC17#32, 0x3E15E813#32, 0x3EDBCFFD#32, 0x3F2CB947#32, 0x3F5C6F71#32]

/-- `TONE_ROM[1]`, `k` = 68 to 84 (R122). -/
def markRow4 : List Word := [
  0x3F78DE46#32, 0x3F7F8930#32, 0x3F6FDAE6#32, 0x3F4B327D#32, 0x3F14C4B1#32, 0x3EA2A83A#32,
  0x3CD8D55B#32, 0xBE88BCF9#32, 0xBF0988EC#32, 0xBF42AC16#32, 0xBF6AC8BB#32, 0xBF7E5CC9#32,
  0xBF7BB1E9#32, 0xBF6303D4#32, 0xBF367B1A#32, 0xBEF3F99E#32, 0xBE4B4D53#32]

/-- `TONE_ROM[1]`, `k` = 0 to 84; the last row only for `SPB` = 85 (R122). -/
def markRow : List Word :=
  markRow0 ++ markRow1 ++ markRow2 ++ markRow3 ++ markRow4

/-- The default configuration: `SPB` = 84 and the reference table (R9, R14). -/
def standardConfig : Config :=
  { spb := .s84, space := spaceRow.take 84, mark := markRow.take 84 }

/-- The only other build in question: `SPB` = 85, with the row `k = 84` (R9, R122). -/
def config85 : Config :=
  { spb := .s85, space := spaceRow, mark := markRow }

end Sys2Proof.Machine
end

