-- ==== Sys2Proof/Machine/State.lean ====
section
/-! DEFINITION. The machine's state as plain data (10_state.md R25 to R48), the reasons a step can
stop, and the state after reset (R48, 70_reset_and_hazards.md R220). -/

namespace Sys2Proof.Machine

/-- The engine record's `op` (R42): IDLE, or the command that is running. -/
inductive Op
  | idle
  | mod
  | bit
  | sil
  | attn
deriving DecidableEq, Repr

/-- Who takes the next step, and with what: the host's accesses, the engine's turns, the sink's
level and reset interleave in any order (00_scope.md R16, 20_memory.md R71), so a list of turns is
one interleaving. DESIGN CHOICE, safe (log 1): statements about every state hold for every list. -/
inductive Turn
  /-- The engine's turn: its one enabled step, if any (43_command_engine.md R156). -/
  | engine
  /-- A host bus read of the word at `hb_addr` (44_host_access.md R170). -/
  | read (addr : BitVec 10)
  /-- A host bus write of `hb_wdata` to the word at `hb_addr` (R171 to R176). -/
  | write (addr : BitVec 10) (data : Word)
  /-- The host polls STATUS until LOCKED = 0: `wait_empty` (30_encoding.md R92). -/
  | waitEmpty
  /-- The sink raises or lowers `s_ready` (10_state.md R22). -/
  | sink (ready : Bool)
  /-- `rst_n` is pulled low and released (70_reset_and_hazards.md R220, R221). -/
  | reset
deriving DecidableEq, Repr

/-- The whole machine: the block's registers, queue, engine record, frame buffer and configuration,
the ports and the other agents' records, and the agenda of turns. -/
structure State where
  /-- CTRL[3:0] (R27): RUN [0], ATTN_ZERO [1], DONE_IE [2], ERR_IE [3]. -/
  ctrl : BitVec 4
  /-- STATUS.DONE (R31). -/
  done : Bool
  /-- STATUS.ERR (R32). -/
  err : Bool
  /-- STATUS.ERRCODE (R32). -/
  errcode : BitVec 4
  /-- SCOUNT (R34). -/
  scount : Word
  /-- The command queue, head first (R41). -/
  queue : List Word
  /-- The command the engine runs (R42). -/
  op : Op
  /-- Buffer address of the current byte (R43). -/
  ptr : BitVec 10
  /-- Bytes not yet finished, the current one included (R43). -/
  left : BitVec 10
  /-- The current byte (R43). -/
  cur : Byte
  /-- Index of the current bit (R43). -/
  bitn : BitVec 3
  /-- Tone of the current bit-tone: 1 mark, 0 space (R43). -/
  tone : BitVec 1
  /-- Index of the next sample within the unit (R43). -/
  k : BitVec 7
  /-- Attention iterations still to run (R43). -/
  acnt : BitVec 24
  /-- CTRL.ATTN_ZERO as the running ATTN latched it (R44). -/
  azero : Bool
  /-- The frame-buffer bytes written since the last reset, addresses strictly rising (R45). -/
  mem : List Host.Cell
  /-- MODEL's own: how many times reset has drawn the unwritten bytes anew (R220; log 5). -/
  draws : Nat
  /-- The configuration: tone ROM and `SPB` (R9, R14, R46; log 6). -/
  cfg : Config
  /-- Port `hb_rdata`: what the host's last read returned (R20, R170; log 7). -/
  hbRdata : Word
  /-- Port `s_ready`: the sink accepts (R20, R22; log 2). -/
  sReady : Bool
  /-- The samples the sink has accepted, newest first (R128, R129; log 8). -/
  received : List Word
  /-- MODEL's own: the turns to come, the next one first (R16; log 1). -/
  agenda : List Turn
deriving DecidableEq, Repr

/-- Why the machine stops. No rule of the spec stops it (60_exceptions.md R200): both reasons are
accesses to an address the spec says does not exist, met only in states no run reaches. -/
inductive Fault
  /-- The engine reads the frame buffer outside addresses 0 to 511 (R45, R60). Raised by `memRead`.
  Safe: R70 says no engine read goes outside the buffer. -/
  | bufAddress (address : Nat)
  /-- The engine reads the tone ROM outside its `SPB` entries (R46, R60). Raised by `romRead`.
  Safe: R159 says `k` runs 0 to `SPB - 1`. -/
  | romIndex (tone : BitVec 1) (index : BitVec 7)
deriving DecidableEq, Repr

/-- Why the model gives no next state. -/
inductive Refusal
  /-- An instruction without a meaning; raised by `exec`'s refused arms, of which there are none. Safe. -/
  | notModelled (mnemonic : String)
  /-- The word at the queue's head is no command. Raised by the engine's dispatch. Safe: every word in
  the queue has passed the legality check (R41), so no run meets it. -/
  | illegalQueued (reason : CmdError)
deriving DecidableEq, Repr

/-- The machine right after reset (R48). The frame buffer lists nothing, so each byte is the free
value of the first drawing; the configuration is the default one (R9, R14). DESIGN CHOICE, unsafe:
`hbRdata` (log 7), `sReady` (log 2), `received` (log 8), `agenda` (log 1), `draws` (log 5). -/
def State.reset : State where
  ctrl := 0#4
  done := false
  err := false
  errcode := 0#4
  scount := 0#32
  queue := []
  op := .idle
  ptr := 0#10
  left := 0#10
  cur := 0#8
  bitn := 0#3
  tone := 0#1
  k := 0#7
  acnt := 0#24
  azero := false
  mem := []
  draws := 0
  cfg := standardConfig
  hbRdata := 0#32
  sReady := true
  received := []
  agenda := []

end Sys2Proof.Machine
end

