-- ==== Sys2Proof/Machine/Ops.lean ====
section
/-! DEFINITION. The named operations over the state: the frame buffer, the tone ROM, the queue, the
sample stream, completion, and the latching and clearing of an error, which is what this block has
in place of taking an exception and returning from one (60_exceptions.md R200 to R208). -/

namespace Sys2Proof.Machine

/-- The byte written at an address since the last reset, if any. An unlisted address has no value
here; what it reads as is `State.bufByte`. -/
def Memory.lookup : List Host.Cell → Nat → Option Byte
  | [], _ => none
  | (b, v) :: m, a => if a = b then some v else Memory.lookup m a

/-- Stores one byte, keeping the addresses strictly rising. -/
def Memory.write : List Host.Cell → Nat → Byte → List Host.Cell
  | [], a, v => [(a, v)]
  | (b, w) :: m, a, v =>
    if a < b then (a, v) :: (b, w) :: m
    else if a = b then (a, v) :: m
    else (b, w) :: Memory.write m a v

/-- Addresses strictly rising. -/
def Memory.rising : List Host.Cell → Bool
  | [] => true
  | [_] => true
  | (a, _) :: (b, w) :: m => decide (a < b) && Memory.rising ((b, w) :: m)

/-- The one canonical form of a frame buffer: addresses strictly rising, all within the buffer. An
unlisted address has no value of its own in the list (its byte is a free value), so no entry can
equal it (log 5). -/
def Memory.wf (m : List Host.Cell) : Bool :=
  Memory.rising m && m.all (fun cell => decide (cell.1 < bufBytes))

/-- What an unlisted address reads as: the byte drawn for it at the last reset (R69, R220; log 5). -/
def State.unlistedByte (s : State) (a : Nat) : Byte := Config.bufDraw s.draws a

/-- The byte the frame buffer holds at an address (R45, R69). -/
def State.bufByte (s : State) (a : Nat) : Byte :=
  (Memory.lookup s.mem a).getD (s.unlistedByte a)

/-- `MemRead(a, 1)` by the engine (R18, R104); an address outside the buffer does not exist (R60). -/
def State.memRead (s : State) (a : Nat) : Except Fault Byte :=
  if a < bufBytes then .ok (s.bufByte a) else .error (.bufAddress a)

/-- `MemWrite(a, 1, v)` by a host write to the BUF window (R18). -/
def State.memWrite (a : Nat) (v : Byte) (s : State) : State :=
  { s with mem := Memory.write s.mem a v }

/-- `TONE_ROM[t][k]` (R46); an index outside the table does not exist (R60). -/
def State.romRead (s : State) (t : BitVec 1) (k : BitVec 7) : Except Fault Word :=
  match (s.cfg.rom t)[k.toNat]? with
  | some w => .ok w
  | none => .error (.romIndex t k)

/-- `q.push(c)`: append at the tail (R41). -/
def State.push (c : Word) (s : State) : State :=
  { s with queue := s.queue ++ [c] }

/-- `Emit(v)`: the sink receives `v` and SCOUNT counts it mod 2^32 (R129). The caller has seen that
the sink accepts. -/
def State.emit (v : Word) (s : State) : State :=
  { s with received := v :: s.received, scount := s.scount + 1#32 }

/-- The sample stream in the order the sink accepted it (R128). -/
def State.stream (s : State) : List Word := s.received.reverse

/-- `q.count = 0` (R30). -/
def State.qempty (s : State) : Bool := decide (s.queue.length = 0)

/-- `complete()`: the engine is idle, and DONE is set when no command waits (R153). -/
def State.complete (s : State) : State :=
  { s with op := .idle, done := s.done || s.qempty }

/-- `raise CmdError(code)`: the first error since ERR was cleared is latched, a later one changes
nothing (R202). This is the block's only error entry: nothing else is saved and control goes
nowhere (R206). -/
def State.raise (e : CmdError) (s : State) : State :=
  if s.err then s else { s with err := true, errcode := e.code }

/-- The return from an error: ERR and ERRCODE cleared (R172, R208). -/
def State.clearErr (s : State) : State :=
  { s with err := false, errcode := 0#4 }

/-- The STATUS write's clearing of DONE (R172). -/
def State.clearDone (s : State) : State :=
  { s with done := false }

/-- The reset step: the block's state becomes the reset state and the buffer is drawn anew
(70_reset_and_hazards.md R220, R221). What is not the block's stays: the configuration, the samples
the sink accepted (R220), the sink's level, the host's last read, the turns to come (log 9). -/
def State.resetBlock (s : State) : State :=
  { State.reset with
    draws := s.draws + 1
    cfg := s.cfg
    hbRdata := s.hbRdata
    sReady := s.sReady
    received := s.received
    agenda := s.agenda }

end Sys2Proof.Machine
end

