-- ==== Sys2Proof/Machine/Flags.lean ====
section
/-! DEFINITION. The fields of CTRL and STATUS (10_state.md R27 to R32), the derived status bits, and
the interrupt line (R47, 60_exceptions.md R207). The block has no other flag (R38). -/

namespace Sys2Proof.Machine

/-- CTRL.RUN (R27). -/
def State.run (s : State) : Bool := s.ctrl.getLsbD 0

/-- CTRL.ATTN_ZERO (R27). -/
def State.attnZero (s : State) : Bool := s.ctrl.getLsbD 1

/-- CTRL.DONE_IE (R27). -/
def State.doneIE (s : State) : Bool := s.ctrl.getLsbD 2

/-- CTRL.ERR_IE (R27). -/
def State.errIE (s : State) : Bool := s.ctrl.getLsbD 3

/-- STATUS.BUSY: `op` is not IDLE (R29). -/
def State.busy (s : State) : Bool := decide (s.op ≠ .idle)

/-- STATUS.QFULL: `q.count = CMDQ_DEPTH` (R30). -/
def State.qfull (s : State) : Bool := decide (s.queue.length = cmdqDepth)

/-- STATUS.LOCKED: `BUSY = 1 or QEMPTY = 0` (R28, 20_memory.md R66). -/
def State.locked (s : State) : Bool := s.busy || !s.qempty

/-- The STATUS word as a host read assembles it (R28, 44_host_access.md R170). -/
def State.status (s : State) : Word :=
  0#11 ++ BitVec.ofNat 5 s.queue.length ++ 0#4 ++ s.errcode ++ 0#2 ++
    BitVec.ofBool s.locked ++ BitVec.ofBool s.err ++ BitVec.ofBool s.done ++
    BitVec.ofBool s.qfull ++ BitVec.ofBool s.qempty ++ BitVec.ofBool s.busy

/-- The interrupt output, a level (R47, R207). -/
def State.irq (s : State) : Bool := (s.done && s.doneIE) || (s.err && s.errIE)

/-- The engine may dispatch: all four conditions of 43_command_engine.md R151. -/
def State.canDispatch (s : State) : Bool :=
  decide (s.op = .idle) && s.run && !s.err && !s.qempty

end Sys2Proof.Machine
end

