-- ==== Sys2Proof/Machine/Operands.lean ====
section
/-! DEFINITION. Operand assembly (30_encoding.md R85), the bit order and tone map of the modulator
(41_afsk_modulator.md R100, R101), and the host's register addresses (10_state.md R25). -/

namespace Sys2Proof.Machine

/-- `zext_10(base)`: the first buffer address of a MOD as the 10-bit `ptr` (R85). -/
def modPtr (base : BitVec 9) : BitVec 10 := base.setWidth 10

/-- `d * 44100`, the exact 24-bit iteration count of an ATTN (R13, R85). -/
def attnCount (d : BitVec 8) : BitVec 24 := BitVec.ofNat 24 (d.toNat * fs)

/-- The tone of bit `n` of a byte: the tone index equals the bit value (R101), bit 0 first (R100). -/
def bitTone (b : Byte) (n : BitVec 3) : BitVec 1 := BitVec.ofBool (b.getLsbD n.toNat)

/-- A register of the host's map (R25). -/
inductive Reg
  | id
  | ctrl
  | status
  | cmd
  | scount
  | param
  | buf (j : BitVec 7)
  | unmapped
deriving DecidableEq, Repr

/-- The register at a word address `hb_addr` = byte offset / 4 (R20, R25): offsets 0x000 to 0x014 are
the six registers, 0x800 to 0x9FC the BUF window, every other one is unmapped. -/
def Reg.ofAddr (a : BitVec 10) : Reg :=
  if a = 0#10 then .id
  else if a = 1#10 then .ctrl
  else if a = 2#10 then .status
  else if a = 3#10 then .cmd
  else if a = 4#10 then .scount
  else if a = 5#10 then .param
  else if a.extractLsb' 7 3 = 4#3 then .buf (a.extractLsb' 0 7)
  else .unmapped

/-- The buffer address of byte `n` (0 to 3) of BUF word `j` (R36). -/
def bufWordAddr (j : BitVec 7) (n : Nat) : Nat := 4 * j.toNat + n

/-- Byte `n` of a host word, byte 0 in bits [7:0]: the window's little-endian packing (R62). -/
def wordByte (w : Word) (n : Nat) : Byte := w.extractLsb' (8 * n) 8

end Sys2Proof.Machine
end

