-- ==== Sys2Proof/Machine/Modulator.lean ====
section
/-! DEFINITION. The AFSK modulator's commands, MOD and BIT (41_afsk_modulator.md): their dispatch, which
is what `exec` runs, and their engine step, one sample each. -/

namespace Sys2Proof.Machine

/-- `dispatch_MOD(base, len)` (R103): an empty range completes at once, else the first byte is read
(R104) and the record is set up at its bit 0. -/
def execMod (base : BitVec 9) (len : BitVec 10) (s : State) : Host.Outcome State Fault Refusal :=
  if len = 0#10 then .next s.complete
  else
    match s.memRead base.toNat with
    | .error f => .fault f
    | .ok b =>
      .next { s with
        op := .mod, ptr := modPtr base, left := len, cur := b, bitn := 0#3,
        tone := bitTone b 0#3, k := 0#7 }

/-- `dispatch_BIT(v)` (R105). -/
def execBit (v : BitVec 1) (s : State) : Host.Outcome State Fault Refusal :=
  .next { s with op := .bit, tone := v, k := 0#7 }

/-- `k < SPB - 1`: the unit has another sample after this one (R103, R105, R126). -/
def State.unitGoesOn (s : State) : Bool := decide (s.k.toNat < s.cfg.spb.toNat - 1)

/-- The end of a byte in `step_MOD`: the next byte of the range is read, or the command is complete
(R103, R104). -/
def finishByte (s : State) : Host.Outcome State Fault Refusal :=
  if s.left - 1#10 = 0#10 then .next { s with bitn := 0#3, left := s.left - 1#10 }.complete
  else
    match s.memRead (s.ptr + 1#10).toNat with
    | .error f => .fault f
    | .ok b =>
      .next { s with
        bitn := 0#3, left := s.left - 1#10, ptr := s.ptr + 1#10, cur := b,
        tone := bitTone b 0#3 }

/-- The end of a bit-tone in `step_MOD`: the next bit of the byte, least significant first (R100), or
the end of the byte. -/
def finishBitTone (s : State) : Host.Outcome State Fault Refusal :=
  if s.bitn.toNat < 7 then
    .next { s with bitn := s.bitn + 1#3, tone := bitTone s.cur (s.bitn + 1#3) }
  else finishByte s

/-- `step_MOD` (R103): one sample, then the advance of the record. -/
def stepMod (s : State) : Host.Outcome State Fault Refusal :=
  match s.romRead s.tone s.k with
  | .error f => .fault f
  | .ok w =>
    if s.unitGoesOn then .next { s.emit w with k := s.k + 1#7 }
    else finishBitTone { s.emit w with k := 0#7 }

/-- `step_BIT` (R105). -/
def stepBit (s : State) : Host.Outcome State Fault Refusal :=
  match s.romRead s.tone s.k with
  | .error f => .fault f
  | .ok w =>
    if s.unitGoesOn then .next { s.emit w with k := s.k + 1#7 }
    else .next (s.emit w).complete

end Sys2Proof.Machine
end

