-- ==== Sys2Proof/Machine/Synthesizer.lean ====
section
/-! DEFINITION. The sample synthesizer's commands, SIL and ATTN (42_sample_synthesizer.md): their
dispatch, which is what `exec` runs, and their engine step. -/

namespace Sys2Proof.Machine

/-- `+0.0`, the value of a silence sample (R124). -/
def silence : Word := 0x00000000#32

/-- `dispatch_SIL()` (R126). -/
def execSil (s : State) : Host.Outcome State Fault Refusal :=
  .next { s with op := .sil, k := 0#7 }

/-- `dispatch_ATTN(d)` (R127): no seconds complete at once, else the iteration count is set and
CTRL.ATTN_ZERO is latched (R44). -/
def execAttn (d : BitVec 8) (s : State) : Host.Outcome State Fault Refusal :=
  if d = 0#8 then .next s.complete
  else .next { s with op := .attn, acnt := attnCount d, azero := s.attnZero }

/-- `step_SIL` (R126): one sample of `+0.0`. -/
def stepSil (s : State) : Host.Outcome State Fault Refusal :=
  if s.unitGoesOn then .next { s.emit silence with k := s.k + 1#7 }
  else .next (s.emit silence).complete

/-- One attention iteration: a sample of `+0.0` in mode `azero` = 1, nothing on the stream in mode 0
(R127). -/
def attnSample (s : State) : State :=
  if s.azero then s.emit silence else s

/-- `step_ATTN` (R127). -/
def stepAttn (s : State) : Host.Outcome State Fault Refusal :=
  if s.acnt - 1#24 = 0#24 then .next { attnSample s with acnt := s.acnt - 1#24 }.complete
  else .next { attnSample s with acnt := s.acnt - 1#24 }

end Sys2Proof.Machine
end

