-- ==== Sys2Proof/Machine/Dispatch.lean ====
section
/-! DEFINITION. The dispatch of a command by its constructor (43_command_engine.md R152, after the pop). -/

namespace Sys2Proof.Machine

def exec (i : Instr) (s : State) : Host.Outcome State Fault Refusal :=
  match i with
  | .mod base len => Sys2Proof.Machine.execMod base len s
  | .bit v => Sys2Proof.Machine.execBit v s
  | .sil => Sys2Proof.Machine.execSil s
  | .attn d => Sys2Proof.Machine.execAttn d s

end Sys2Proof.Machine
end

