-- ==== Sys2Proof/Machine/HostAccess.lean ====
section
/-! DEFINITION. The host's register accesses (44_host_access.md): each one atomic step (10_state.md R21),
never refused by a stop, an error only latching its code. -/

namespace Sys2Proof.Machine

/-- ID (R26). -/
def idWord : Word := 0x4146534B#32

/-- PARAM: `BUF_BYTES`, `CMDQ_DEPTH` and the configured `SPB` (R35). -/
def State.paramWord (s : State) : Word :=
  BitVec.ofNat 16 bufBytes ++ BitVec.ofNat 8 cmdqDepth ++ BitVec.ofNat 8 s.cfg.spb.toNat

/-- BUF word `j`: four buffer bytes, the lowest address in bits [7:0] (R36, R62). -/
def State.bufWord (s : State) (j : BitVec 7) : Word :=
  s.bufByte (bufWordAddr j 3) ++ s.bufByte (bufWordAddr j 2) ++
    s.bufByte (bufWordAddr j 1) ++ s.bufByte (bufWordAddr j 0)

/-- `host_read` (R170): the value of a register; reading changes nothing in the block. -/
def State.readReg (s : State) : Reg → Word
  | .id => idWord
  | .ctrl => s.ctrl.setWidth 32
  | .status => s.status
  | .cmd => 0#32
  | .scount => s.scount
  | .param => s.paramWord
  | .buf j => s.bufWord j
  | .unmapped => 0#32

/-- A host read: `hb_rdata` carries the value (R20, R170). -/
def hostRead (addr : BitVec 10) (s : State) : State :=
  { s with hbRdata := s.readReg (Reg.ofAddr addr) }

/-- Write CTRL: the four fields at once (R171). -/
def writeCtrl (data : Word) (s : State) : State :=
  { s with ctrl := data.setWidth 4 }

/-- Write STATUS: write-1-to-clear of DONE (bit 3) and of ERR with ERRCODE (bit 4) (R172). -/
def writeStatus (data : Word) (s : State) : State :=
  let s := if data.getLsbD 3 then s.clearDone else s
  if data.getLsbD 4 then s.clearErr else s

/-- Write CMD: the legality check, then the full queue, then the push (R173). -/
def writeCmd (c : Word) (s : State) : State :=
  match decode c with
  | .error e => s.raise e
  | .ok _ => if s.qfull then s.raise .cmdqOverflow else s.push c

/-- Write SCOUNT: cleared, whatever the data (R174). -/
def writeScount (s : State) : State :=
  { s with scount := 0#32 }

/-- The four byte stores of an unlocked BUF write (R175). -/
def storeWord (j : BitVec 7) (data : Word) (s : State) : State :=
  (((s.memWrite (bufWordAddr j 0) (wordByte data 0)).memWrite (bufWordAddr j 1) (wordByte data 1)).memWrite
    (bufWordAddr j 2) (wordByte data 2)).memWrite (bufWordAddr j 3) (wordByte data 3)

/-- Write BUF word `j`: refused while the buffer is locked (R175, 20_memory.md R66). -/
def writeBuf (j : BitVec 7) (data : Word) (s : State) : State :=
  if s.locked then s.raise .bufLocked else storeWord j data s

/-- A host write (R171 to R176). -/
def writeReg (data : Word) (s : State) : Reg → State
  | .id => s
  | .ctrl => writeCtrl data s
  | .status => writeStatus data s
  | .cmd => writeCmd data s
  | .scount => writeScount s
  | .param => s
  | .buf j => writeBuf j data s
  | .unmapped => s

/-- A host write to the word at `hb_addr`. -/
def hostWrite (addr : BitVec 10) (data : Word) (s : State) : State :=
  writeReg data s (Reg.ofAddr addr)

end Sys2Proof.Machine
end

