-- ==== Sys2Proof/Machine/Engine.lean ====
section
/-! DEFINITION. The command engine (43_command_engine.md R150 to R156) and the turn of each agent. -/

namespace Sys2Proof.Machine

/-- `s_valid`: the running command's next step offers a sample (R22, R130, R156). -/
def State.sValid (s : State) : Bool :=
  match s.op with
  | .idle => false
  | .mod => true
  | .bit => true
  | .sil => true
  | .attn => s.azero

/-- `s_data`: the sample offered; none while nothing is offered (R22; log 15). -/
def State.sData (s : State) : Option Word :=
  match s.op with
  | .idle => none
  | .mod => (s.romRead s.tone s.k).toOption
  | .bit => (s.romRead s.tone s.k).toOption
  | .sil => some silence
  | .attn => if s.azero then some silence else none

/-- The command at the queue's head runs its dispatch on the popped queue (R152). -/
def dispatch (s : State) : Host.Outcome State Fault Refusal :=
  match s.queue with
  | [] => .next s
  | c :: q =>
    match decode c with
    | .ok i => exec i { s with queue := q }
    | .error e => .refused (.illegalQueued e)

/-- The step of the running command (R156). -/
def runStep (s : State) : Host.Outcome State Fault Refusal :=
  match s.op with
  | .idle => .next s
  | .mod => stepMod s
  | .bit => stepBit s
  | .sil => stepSil s
  | .attn => stepAttn s

/-- The engine's whole step relation (R156): a dispatch when enabled (R151); the running command's
step, which waits for the sink when it offers a sample (R129); otherwise no step (log 12). -/
def engineStep (s : State) : Host.Outcome State Fault Refusal :=
  if s.op = .idle then
    if s.canDispatch then dispatch s else .next s
  else if s.sValid && !s.sReady then .next s
  else runStep s

/-- One poll of `wait_empty` (R92): the host reads STATUS; while LOCKED = 1 it will poll again after a
turn of the engine (log 13). -/
def pollEmpty (s : State) : State :=
  let r := { s with hbRdata := s.status }
  if s.locked then { r with agenda := .engine :: .waitEmpty :: r.agenda } else r

/-- The turn of one agent. -/
def takeTurn (t : Turn) (s : State) : Host.Outcome State Fault Refusal :=
  match t with
  | .engine => engineStep s
  | .read addr => .next (hostRead addr s)
  | .write addr data => .next (hostWrite addr data s)
  | .waitEmpty => .next (pollEmpty s)
  | .sink ready => .next { s with sReady := ready }
  | .reset => .next s.resetBlock

/-- One step of the machine: the agenda's first turn; with an empty agenda the engine's (log 1). -/
def machineStep (s : State) : Host.Outcome State Fault Refusal :=
  match s.agenda with
  | [] => engineStep s
  | t :: rest => takeTurn t { s with agenda := rest }

/-- The state in which the next step dispatches a given command word: the word stands at the queue's
head (in place of the one there), the engine is idle with RUN = 1 and ERR = 0, and the next turn is
the engine's (R151, R152; log 4). -/
def offerCommand (s : State) (c : Word) : State :=
  { s with
    op := .idle
    ctrl := s.ctrl ||| 1#4
    err := false
    errcode := 0#4
    queue := c :: s.queue.drop 1
    agenda := .engine :: s.agenda }

end Sys2Proof.Machine
end

