-- ==== Sys2Proof/Machine/Step.lean ====
section
/-! DEFINITION. The machine's step, and the state in which a given command is the next to run. -/

namespace Sys2Proof.Machine

/-- One step of the machine. -/
def step (s : State) : Host.Outcome State Fault Refusal := machineStep s

/-- `s` with the command of `nbits` bits `w` where the engine fetches its next command. -/
def State.withFetchWord (s : State) (nbits w : Nat) : State := offerCommand s (tableWord nbits w)

end Sys2Proof.Machine
end

