-- ==== Sys2Proof/Machine/Program.lean ====
section
/-! DEFINITION. The assembler's commands and pseudo-commands (30_encoding.md R90, R91), the host program
syntax (R92) as turns of the agenda, their text (log 13), and the source's full transmission
(43_command_engine.md R158). -/

namespace Sys2Proof.Machine

/-- A line of command assembly (R90) or a pseudo-command (R91), its operands still numbers. -/
inductive Asm
  | mod (base len : Nat)
  | bit (v : Nat)
  | sil
  | attn (d : Nat)
  | mark
  | space
  | pause (n : Nat)
  | burst (base len : Nat)
deriving DecidableEq, Repr

/-- A MOD with operands in range, else none: "The assembler refuses an operand out of its range
rather than truncating it" (R90). -/
def asmMod (base len : Nat) : Option Instr :=
  if base < bufBytes ∧ len ≤ bufBytes ∧ base + len ≤ bufBytes then
    some (.mod (BitVec.ofNat 9 base) (BitVec.ofNat 10 len))
  else none

/-- The commands of one assembly line (R90, R91). -/
def Asm.expand : Asm → Option (List Instr)
  | .mod base len => (asmMod base len).map fun i => [i]
  | .bit v => if v ≤ 1 then some [.bit (BitVec.ofNat 1 v)] else none
  | .sil => some [.sil]
  | .attn d => if d ≤ 255 then some [.attn (BitVec.ofNat 8 d)] else none
  | .mark => some [.bit 1#1]
  | .space => some [.bit 0#1]
  | .pause n => if 1 ≤ n then some (List.replicate n .sil) else none
  | .burst base len => (asmMod base len).map fun i => [i, .sil]

/-- A line of a host program (R92). The value after `->` in a read says what the rules give; the access
does not depend on it. -/
inductive HostOp
  | wr (addr : BitVec 10) (data : Word)
  | rd (addr : BitVec 10) (gives : Option Word)
  | cmd (command : Asm)
  | waitEmpty
deriving DecidableEq, Repr

/-- The word address of CMD (R25). -/
def cmdAddr : BitVec 10 := 3#10

/-- `cmd` is a write of the command's encoding to CMD (R92). -/
def cmdTurn (i : Instr) : Turn := .write cmdAddr (encode i)

/-- The host's turns for one line (R92). -/
def HostOp.turns : HostOp → Option (List Turn)
  | .wr addr data => some [.write addr data]
  | .rd addr _ => some [.read addr]
  | .cmd command => command.expand.map fun is => is.map cmdTurn
  | .waitEmpty => some [.waitEmpty]

/-- Ends the token that has been read so far, if any. -/
def endToken (current : List Char) (rest : List (List Char)) : List (List Char) :=
  if current = [] then rest else current.reverse :: rest

/-- The tokens of a line, letters in lower case (names are case-insensitive); a comma is a token of its
own; `;` starts a comment (R90). -/
def tokens : List Char → List Char → List (List Char)
  | [], current => endToken current []
  | c :: cs, current =>
    if c = ';' then endToken current []
    else if c = ' ' ∨ c = '\t' ∨ c = '\r' then endToken current (tokens cs [])
    else if c = ',' then endToken current ([','] :: tokens cs [])
    else tokens cs (c.toLower :: current)

/-- The value of a digit in a base of at most 16. -/
def digitValue (base : Nat) (c : Char) : Option Nat :=
  let n :=
    if '0' ≤ c ∧ c ≤ '9' then c.toNat - '0'.toNat
    else if 'a' ≤ c ∧ c ≤ 'f' then c.toNat - 'a'.toNat + 10
    else base
  if n < base then some n else none

/-- The number that a string of digits writes, most significant digit first. -/
def digits (base : Nat) : List Char → Nat → Option Nat
  | [], acc => some acc
  | c :: cs, acc =>
    match digitValue base c with
    | some n => digits base cs (acc * base + n)
    | none => none

/-- A decimal number or a `0x` hexadecimal one (R90). -/
def parseNumber : List Char → Option Nat
  | [] => none
  | '0' :: 'x' :: c :: cs => digits 16 (c :: cs) 0
  | c :: cs => digits 10 (c :: cs) 0

/-- An assembly line's tokens (R90, R91). -/
def parseAsm : List (List Char) → Option Asm
  | [m] =>
    if m = "sil".toList then some .sil
    else if m = "mark".toList then some .mark
    else if m = "space".toList then some .space
    else none
  | [m, a] =>
    match parseNumber a with
    | none => none
    | some n =>
      if m = "bit".toList then some (.bit n)
      else if m = "attn".toList then some (.attn n)
      else if m = "pause".toList then some (.pause n)
      else none
  | [m, a, comma, b] =>
    match parseNumber a, parseNumber b with
    | some base, some len =>
      if comma ≠ [','] then none
      else if m = "mod".toList then some (.mod base len)
      else if m = "burst".toList then some (.burst base len)
      else none
    | _, _ => none
  | _ => none

/-- The word address of a byte offset, which must be a multiple of 4 in the 4 KiB space (R25). -/
def offsetAddr (offset : Nat) : Option (BitVec 10) :=
  if offset % 4 = 0 ∧ offset < 4096 then some (BitVec.ofNat 10 (offset / 4)) else none

/-- A register's name (R25, R92), `BUF+4*j` written with its byte distance as in 95_test_vectors.md, or a
plain byte offset. -/
def parseReg (r : List Char) : Option (BitVec 10) :=
  if r = "id".toList then some 0#10
  else if r = "ctrl".toList then some 1#10
  else if r = "status".toList then some 2#10
  else if r = "cmd".toList then some 3#10
  else if r = "scount".toList then some 4#10
  else if r = "param".toList then some 5#10
  else if r.take 4 = "buf+".toList then
    match parseNumber (r.drop 4) with
    | some n => if n < bufBytes then offsetAddr (0x800 + n) else none
    | none => none
  else
    match parseNumber r with
    | some n => offsetAddr n
    | none => none

/-- A 32-bit value, refused rather than truncated. -/
def parseWord (w : List Char) : Option Word :=
  match parseNumber w with
  | some n => if n < 2 ^ 32 then some (BitVec.ofNat 32 n) else none
  | none => none

/-- A host program line's tokens (R92). -/
def parseHostOp : List (List Char) → Option HostOp
  | [] => none
  | t :: ts =>
    if t = "wait_empty".toList then
      match ts with
      | [] => some .waitEmpty
      | _ => none
    else if t = "cmd".toList then (parseAsm ts).map .cmd
    else if t = "wr".toList then
      match ts with
      | [r, comma, v] =>
        match parseReg r, parseWord v with
        | some addr, some data => if comma = [','] then some (.wr addr data) else none
        | _, _ => none
      | _ => none
    else if t = "rd".toList then
      match ts with
      | [r] => (parseReg r).map fun addr => .rd addr none
      | [r, arrow, v] =>
        match parseReg r, parseWord v with
        | some addr, some data => if arrow = "->".toList then some (.rd addr (some data)) else none
        | _, _ => none
      | _ => none
    else none

/-- The lines of a text. -/
def textLines : List Char → List Char → List (List Char)
  | [], current => [current.reverse]
  | c :: cs, current =>
    if c = '\n' then current.reverse :: textLines cs [] else textLines cs (c :: current)

/-- The commands that an assembly text stands for, none if a line is refused (R90). -/
def assembleLines : List (List Char) → Option (List Instr)
  | [] => some []
  | l :: ls =>
    match tokens l [] with
    | [] => assembleLines ls
    | ts =>
      match (parseAsm ts).bind Asm.expand, assembleLines ls with
      | some is, some rest => some (is ++ rest)
      | _, _ => none

/-- The assembler (R90, R91). -/
def assemble (text : String) : Option (List Instr) := assembleLines (textLines text.toList [])

/-- The turns of a host program's lines, none if a line is refused (R92). -/
def programLines : List (List Char) → Option (List Turn)
  | [] => some []
  | l :: ls =>
    match tokens l [] with
    | [] => programLines ls
    | ts =>
      match (parseHostOp ts).bind HostOp.turns, programLines ls with
      | some here, some rest => some (here ++ rest)
      | _, _ => none

/-- The host's turns for a host program's text (R92). -/
def hostProgram (text : String) : Option (List Turn) := programLines (textLines text.toList [])

/-- The state in which the host is about to make the given turns. -/
def State.withTurns (s : State) (ts : List Turn) : State := { s with agenda := s.agenda ++ ts }

/-- One burst and its trailing silence, three times (R158). -/
def threeBursts (base : BitVec 9) (len : BitVec 10) : List Instr :=
  [.mod base len, .sil, .mod base len, .sil, .mod base len, .sil]

/-- The 14 commands that play the source's full transmission: the header frame of `lh` bytes at `h`,
the EOM frame of 20 bytes at `e`, an attention segment of `d` seconds (R158). -/
def transmission (h : BitVec 9) (lh : BitVec 10) (e : BitVec 9) (d : BitVec 8) : List Instr :=
  threeBursts h lh ++ [.attn d, .sil] ++ threeBursts e 20#10

end Sys2Proof.Machine
end

