-- ==== Sys2Proof/Safety.lean ====
section
/-! DEFINITION. The terms that claims about the machine use: the invariant of every run, what a safe step
is, quiescence and the end of a run (43_command_engine.md R157), runs of steps, and the samples each command stands for. -/

namespace Sys2Proof.Machine

/-- What holds of the engine record while a command runs (10_state.md R43, 43_command_engine.md R159):
a MOD's range stays in the buffer, its current byte is the buffer's and its tone that byte's bit; the
sample index stays below `SPB`; an ATTN has 1 to 11,245,500 iterations to run. -/
def State.engineInv (s : State) : Prop :=
  match s.op with
  | .idle => True
  | .mod =>
    1 ≤ s.left.toNat ∧ s.ptr.toNat + s.left.toNat ≤ bufBytes ∧ s.k.toNat < s.cfg.spb.toNat ∧
      s.cur = s.bufByte s.ptr.toNat ∧ s.tone = bitTone s.cur s.bitn
  | .bit => s.k.toNat < s.cfg.spb.toNat
  | .sil => s.k.toNat < s.cfg.spb.toNat
  | .attn => 1 ≤ s.acnt.toNat ∧ s.acnt.toNat ≤ 11245500

/-- The invariant of every run. -/
structure Inv (s : State) : Prop where
  /-- The tone table has `2 * SPB` words (R46). -/
  tableWf : s.cfg.wf = true
  /-- The frame buffer has its canonical form. -/
  memoryWf : Memory.wf s.mem = true
  /-- At most `CMDQ_DEPTH` commands wait (R41). -/
  queueBound : s.queue.length ≤ cmdqDepth
  /-- "Every word in it has passed the legality check" (R41). -/
  queueLegal : ∀ c ∈ s.queue, legalWord c = true
  /-- ERRCODE is a code of R201, and 0 exactly when ERR = 0 (R28). -/
  errorCode : s.errcode.toNat ≤ 5 ∧ (s.err = false ↔ s.errcode = 0#4)
  /-- The engine record's ranges. -/
  engine : s.engineInv

/-- The engine can take no step without a host action: it is idle and cannot dispatch (R157). -/
def State.quiescent (s : State) : Bool :=
  decide (s.op = .idle) && (s.qempty || !s.run || s.err)

/-- A turn in which the host makes an access (44_host_access.md): a read, a write, a poll. -/
def Turn.isHost : Turn → Bool
  | .engine => false
  | .read _ => true
  | .write _ _ => true
  | .waitEmpty => true
  | .sink _ => false
  | .reset => false

/-- The host has made its last access: none of the turns to come is the host's. -/
def State.hostDone (s : State) : Bool := s.agenda.all fun t => !t.isHost

/-- The run of a host program has ended: the host has made its last access and the engine is quiescent
(R157). Turns of the engine, the sink or reset may still be to come. -/
def State.ended (s : State) : Bool := s.hostDone && s.quiescent

/-- It has ended normally: no command waits and no error is latched (R157). -/
def State.endedNormally (s : State) : Bool := s.ended && s.qempty && !s.err

/-- `n` steps of the machine. -/
def runSteps (n : Nat) (s : State) : Host.Outcome State Fault Refusal :=
  Host.Core.run Sys2Proof.core n s

/-- The run from `s` ends after `n` steps, in `t`, which is the first state of the run that has ended
(R157), so a later reset is not a part of it. -/
structure RunEnds (s : State) (n : Nat) (t : State) : Prop where
  /-- `n` steps lead to `t`. -/
  reaches : runSteps n s = .next t
  /-- The host has made its last access and the engine is quiescent. -/
  ended : t.ended = true
  /-- No state before it had ended. -/
  first : ∀ m u, m < n → runSteps m s = .next u → u.ended = false

/-- It ends normally: with an empty queue and ERR = 0 (R157). -/
def RunEndsNormally (s : State) (n : Nat) (t : State) : Prop :=
  RunEnds s n t ∧ t.endedNormally = true

/-- The samples of a run from `s` to its end `t`: those the sink accepted up to then (R157). -/
def runSamples (s t : State) : List Word := t.stream.drop s.stream.length

/-- The turn that the next step gives. -/
def State.nextTurn (s : State) : Turn :=
  match s.agenda with
  | [] => .engine
  | t :: _ => t

/-- The turns that remain after the next step's turn is taken from the agenda. -/
def State.laterTurns (s : State) : List Turn := s.agenda.drop 1

/-- The 84 (or 85) samples of a bit-tone (41_afsk_modulator.md R102). -/
def bitToneSamples (c : Config) (t : BitVec 1) : List Word := c.rom t

/-- A byte's 8 bit-tones, least significant bit first (R100). -/
def byteSamples (c : Config) (b : Byte) : List Word :=
  (List.range 8).flatMap fun j => bitToneSamples c (BitVec.ofBool (b.getLsbD j))

/-- The bit-tones of the buffer bytes `base` to `base + len - 1` (R103, R106). -/
def rangeSamples (s : State) (base len : Nat) : List Word :=
  (List.range len).flatMap fun i => byteSamples s.cfg (s.bufByte (base + i))

/-- The samples a command stands for when it is dispatched in state `s` (R103, R105, R126, R127). -/
def commandSamples (s : State) : Instr → List Word
  | .mod base len => rangeSamples s base.toNat len.toNat
  | .bit v => bitToneSamples s.cfg v
  | .sil => List.replicate s.cfg.spb.toNat silence
  | .attn d => if s.attnZero then List.replicate (d.toNat * fs) silence else []

/-- The engine steps a command takes after its dispatch. -/
def commandSteps (c : Config) : Instr → Nat
  | .mod _ len => 8 * len.toNat * c.spb.toNat
  | .bit _ => c.spb.toNat
  | .sil => c.spb.toNat
  | .attn d => d.toNat * fs

/-- The samples of a queued word. -/
def wordSamples (s : State) (c : Word) : List Word :=
  match decode c with
  | .ok i => commandSamples s i
  | .error _ => []

/-- The samples of the queue's commands, in their order (R155). -/
def queueSamples (s : State) (q : List Word) : List Word := q.flatMap (wordSamples s)

/-- The engine steps of a queued word, its dispatch included. -/
def wordSteps (c : Config) (w : Word) : Nat :=
  match decode w with
  | .ok i => 1 + commandSteps c i
  | .error _ => 1

/-- The engine steps of the queue's commands. -/
def queueSteps (c : Config) (q : List Word) : Nat := (q.map (wordSteps c)).sum

end Sys2Proof.Machine
end

