-- ==== Sys2Proof/Certificates/Slice0/Obligations.lean ====
section
/-! DEFINITION. The statements about the machine, one definition each; OBLIGATIONS.json lists them with
the rules they formalise. In them `nextTurn` is the turn the next step gives and `laterTurns` the
agenda it leaves. -/

open Sys2Proof Sys2Proof.Machine

/-! ### Encoding -/

/-- Decode and encode agree on every legal command, every operand at every value its field admits. -/
def Obligations.DecodeReadsBackEveryEncoding : Prop :=
  ∀ i : Instr, i.wellFormed = true → decode (encode i) = .ok i

/-- A word that decodes is the encoding of what it decodes to, which is legal: each word has one
meaning and no command a second word. -/
def Obligations.DecodedWordIsItsEncoding : Prop :=
  ∀ (c : Word) (i : Instr), decode c = .ok i → encode i = c ∧ i.wellFormed = true

/-- Words written out from the tables of 30_encoding.md and the vectors E1 to E22. -/
def Obligations.WrittenWordsDecodeAsTheTablesSay : Prop :=
  decode 0x10FF0101#32 = .ok (.mod 255#9 257#10) ∧
  decode 0x11FF0001#32 = .ok (.mod 511#9 1#10) ∧
  decode 0x20000001#32 = .ok (.bit 1#1) ∧
  decode 0x30000000#32 = .ok .sil ∧
  decode 0x4000000A#32 = .ok (.attn 10#8) ∧
  decode 0x00000000#32 = .error .illegalOpcode ∧
  decode 0x1FFFFFFF#32 = .error .reservedBits ∧
  decode 0x11FF0002#32 = .error .bufRange

/-- R87, the four checks as conditions on the word's number, in their order: opcode, reserved bits,
range, legal. -/
def Obligations.DecodeAppliesItsChecksInOrder : Prop :=
  ∀ c : Word,
    let op := c.toNat / 2 ^ 28
    let legalOp := op = 1 ∨ op = 2 ∨ op = 3 ∨ op = 4
    let reserved :=
      (op = 1 ∧ (c.toNat / 2 ^ 25 % 8 ≠ 0 ∨ c.toNat / 2 ^ 10 % 64 ≠ 0)) ∨
      (op = 2 ∧ c.toNat / 2 % 2 ^ 27 ≠ 0) ∨
      (op = 3 ∧ c.toNat % 2 ^ 28 ≠ 0) ∨
      (op = 4 ∧ c.toNat / 2 ^ 8 % 2 ^ 20 ≠ 0)
    let outside := op = 1 ∧ c.toNat / 2 ^ 16 % 2 ^ 9 + c.toNat % 2 ^ 10 > 512
    (decode c = .error .illegalOpcode ↔ ¬ legalOp) ∧
    (decode c = .error .reservedBits ↔ legalOp ∧ reserved) ∧
    (decode c = .error .bufRange ↔ legalOp ∧ ¬ reserved ∧ outside) ∧
    (legalWord c = true ↔ legalOp ∧ ¬ reserved ∧ ¬ outside)

/-- The list of legal words that ends 30_encoding.md section 4. -/
def Obligations.LegalWordsAreExactlyTheListedOnes : Prop :=
  ∀ c : Word, legalWord c = true ↔
    (∃ base len : Nat, base ≤ 511 ∧ len ≤ 512 ∧ base + len ≤ 512 ∧
      c.toNat = 0x10000000 + base * 2 ^ 16 + len) ∨
    c.toNat = 0x20000000 ∨ c.toNat = 0x20000001 ∨ c.toNat = 0x30000000 ∨
    (0x40000000 ≤ c.toNat ∧ c.toNat ≤ 0x400000FF)

/-- The assembler gives only legal commands and truncates no operand: a MOD's and an ATTN's operands are
the numbers written, and an operand out of range is refused. -/
def Obligations.AssemblerRefusesRatherThanTruncates : Prop :=
  (∀ (a : Asm) (is : List Instr), a.expand = some is → ∀ i ∈ is, i.wellFormed = true) ∧
  (∀ base len : Nat, (Asm.mod base len).expand = none ↔ ¬ (base ≤ 511 ∧ len ≤ 512 ∧ base + len ≤ 512)) ∧
  (∀ (base len : Nat) (is : List Instr), (Asm.mod base len).expand = some is →
    is.map encode = [BitVec.ofNat 32 (0x10000000 + base * 2 ^ 16 + len)]) ∧
  (∀ (d : Nat) (is : List Instr), (Asm.attn d).expand = some is →
    d ≤ 255 ∧ is.map encode = [BitVec.ofNat 32 (0x40000000 + d)]) ∧
  (∀ (v : Nat) (is : List Instr), (Asm.bit v).expand = some is →
    v ≤ 1 ∧ is.map encode = [BitVec.ofNat 32 (0x20000000 + v)])

/-! ### Dispatch: the step runs the decoded command, and what each command's dispatch makes -/

/-- The step from an engine turn (or an empty agenda, the model's choice of log 1) with RUN = 1,
ERR = 0 and an idle engine is `exec` of the command at the queue's head, the queue popped. -/
def Obligations.StepRunsTheDecodedCommand : Prop :=
  ∀ (s : State) (c : Word) (q : List Word) (i : Instr) (rest : List Turn),
    s.op = .idle → s.run = true → s.err = false → decode c = .ok i →
    step { s with queue := c :: q, agenda := .engine :: rest } =
      exec i { s with queue := q, agenda := rest } ∧
    step { s with queue := c :: q, agenda := [] } = exec i { s with queue := q, agenda := [] }

/-- `dispatch_MOD`: an empty range completes at once; any other starts at bit 0 of its first byte. -/
def Obligations.ModDispatchStartsAtItsFirstByte : Prop :=
  ∀ (s : State) (base : BitVec 9) (len : BitVec 10),
    (len = 0#10 → exec (.mod base len) s =
      .next { s with op := .idle, done := s.done || s.qempty }) ∧
    (len ≠ 0#10 → exec (.mod base len) s =
      .next { s with
        op := .mod, ptr := base.setWidth 10, left := len, cur := s.bufByte base.toNat, bitn := 0#3,
        tone := BitVec.ofBool ((s.bufByte base.toNat).getLsbD 0), k := 0#7 })

/-- `dispatch_BIT`. -/
def Obligations.BitDispatchSelectsItsTone : Prop :=
  ∀ (s : State) (v : BitVec 1), exec (.bit v) s = .next { s with op := .bit, tone := v, k := 0#7 }

/-- `dispatch_SIL`. -/
def Obligations.SilDispatchStartsAUnit : Prop :=
  ∀ s : State, exec .sil s = .next { s with op := .sil, k := 0#7 }

/-- `dispatch_ATTN`: zero seconds complete at once; otherwise the exact product `d * 44100` is the
count, at most 11,245,500, and CTRL.ATTN_ZERO (bit 1) is latched. -/
def Obligations.AttnDispatchLatchesItsMode : Prop :=
  ∀ (s : State) (d : BitVec 8),
    (d = 0#8 → exec (.attn d) s = .next { s with op := .idle, done := s.done || s.qempty }) ∧
    (d ≠ 0#8 → ∃ n : BitVec 24, n.toNat = d.toNat * 44100 ∧ n.toNat ≤ 11245500 ∧
      exec (.attn d) s = .next { s with op := .attn, acnt := n, azero := s.ctrl.getLsbD 1 })

/-- The frame of the four dispatches: no register, error field, counter, queue entry, buffer byte or
sample changes, and the fields of the record a command does not use keep their values. -/
def Obligations.DispatchFrame : Prop :=
  ∀ (i : Instr) (s t : State), exec i s = .next t →
    (t.ctrl = s.ctrl ∧ t.err = s.err ∧ t.errcode = s.errcode ∧ t.scount = s.scount ∧
      t.queue = s.queue ∧ t.cfg = s.cfg ∧ t.hbRdata = s.hbRdata ∧ t.sReady = s.sReady ∧
      t.received = s.received ∧ t.agenda = s.agenda ∧ t.draws = s.draws) ∧
    (∀ a : Nat, t.bufByte a = s.bufByte a) ∧
    (t.done = s.done ∨ (t.done = true ∧ t.op = .idle ∧ t.queue = [])) ∧
    (match i with
      | .mod _ _ => t.acnt = s.acnt ∧ t.azero = s.azero
      | .bit _ => t.ptr = s.ptr ∧ t.left = s.left ∧ t.cur = s.cur ∧ t.bitn = s.bitn ∧
          t.acnt = s.acnt ∧ t.azero = s.azero
      | .sil => t.ptr = s.ptr ∧ t.left = s.left ∧ t.cur = s.cur ∧ t.bitn = s.bitn ∧
          t.tone = s.tone ∧ t.acnt = s.acnt ∧ t.azero = s.azero
      | .attn _ => t.ptr = s.ptr ∧ t.left = s.left ∧ t.cur = s.cur ∧ t.bitn = s.bitn ∧
          t.tone = s.tone ∧ t.k = s.k)

/-- When a dispatch is enabled (43_command_engine.md R151): with all four conditions the step of an engine
turn is `exec` of the decoded head command on the popped queue, and it goes on when that word is legal
(any other word, which no run queues, the model refuses: log 11); in any other state an engine turn
keeps the queue. That an idle engine's turn then answers the state less the turn is the model's form of
"takes no Dispatch" (log 12). -/
def Obligations.DispatchIsEnabledExactlyWhenAllFourHold : Prop :=
  ∀ (s : State) (rest : List Turn),
    let before := { s with agenda := .engine :: rest }
    let after := { s with agenda := rest }
    let four := s.op = .idle ∧ s.ctrl.getLsbD 0 = true ∧ s.err = false ∧ s.queue ≠ []
    (four → ∃ c q, s.queue = c :: q ∧
      (∀ i, decode c = .ok i → step before = exec i { after with queue := q }) ∧
      (legalWord c = true → ∃ t, step before = .next t ∧ t.queue = q) ∧
      (∀ t, step before = .next t → t.queue = q ∧ legalWord c = true)) ∧
    (¬ four → ∀ t, step before = .next t → t.queue = s.queue) ∧
    (s.op = .idle → ¬ four → step before = .next after)

/-! ### The engine's steps -/

/-- `step_MOD` on an accepting sink: one sample, then the next sample, bit, byte, or the end. -/
def Obligations.ModStepAdvancesSampleBitAndByte : Prop :=
  ∀ (s : State) (w : Word) (rest : List Turn),
    s.op = .mod → s.sReady = true → (s.cfg.rom s.tone)[s.k.toNat]? = some w →
    s.ptr.toNat + s.left.toNat ≤ 512 → 1 ≤ s.left.toNat →
    let e := { s with agenda := rest, received := w :: s.received, scount := s.scount + 1#32 }
    let next := s.bufByte (s.ptr.toNat + 1)
    step { s with agenda := .engine :: rest } = .next (
      if s.k.toNat < s.cfg.spb.toNat - 1 then { e with k := s.k + 1#7 }
      else if s.bitn.toNat < 7 then
        { e with k := 0#7, bitn := s.bitn + 1#3,
                 tone := BitVec.ofBool (s.cur.getLsbD (s.bitn.toNat + 1)) }
      else if s.left.toNat = 1 then
        { e with k := 0#7, bitn := 0#3, left := 0#10, op := .idle, done := s.done || s.qempty }
      else
        { e with k := 0#7, bitn := 0#3, left := s.left - 1#10, ptr := s.ptr + 1#10, cur := next,
                 tone := BitVec.ofBool (next.getLsbD 0) })

/-- `step_BIT` on an accepting sink. -/
def Obligations.BitStepEmitsOneToneSample : Prop :=
  ∀ (s : State) (w : Word) (rest : List Turn),
    s.op = .bit → s.sReady = true → (s.cfg.rom s.tone)[s.k.toNat]? = some w →
    let e := { s with agenda := rest, received := w :: s.received, scount := s.scount + 1#32 }
    step { s with agenda := .engine :: rest } = .next (
      if s.k.toNat < s.cfg.spb.toNat - 1 then { e with k := s.k + 1#7 }
      else { e with op := .idle, done := s.done || s.qempty })

/-- `step_SIL` on an accepting sink: the sample is `+0.0`. -/
def Obligations.SilStepEmitsOneZeroSample : Prop :=
  ∀ (s : State) (rest : List Turn), s.op = .sil → s.sReady = true →
    let e := { s with agenda := rest, received := 0x00000000#32 :: s.received,
                      scount := s.scount + 1#32 }
    step { s with agenda := .engine :: rest } = .next (
      if s.k.toNat < s.cfg.spb.toNat - 1 then { e with k := s.k + 1#7 }
      else { e with op := .idle, done := s.done || s.qempty })

/-- `step_ATTN`: in mode 1 a zero sample on an accepting sink; in mode 0 nothing on the stream, whatever
the sink does; the count falls by one and the last iteration completes. -/
def Obligations.AttnStepCountsOneIteration : Prop :=
  ∀ (s : State) (rest : List Turn), s.op = .attn → 1 ≤ s.acnt.toNat →
    (s.azero = true → s.sReady = true) →
    let e := if s.azero then
        { s with agenda := rest, received := 0x00000000#32 :: s.received, scount := s.scount + 1#32 }
      else { s with agenda := rest }
    step { s with agenda := .engine :: rest } = .next (
      if s.acnt.toNat = 1 then { e with acnt := 0#24, op := .idle, done := s.done || s.qempty }
      else { e with acnt := s.acnt - 1#24 })

/-- The frame of every engine turn. -/
def Obligations.EngineTurnFrame : Prop :=
  ∀ s t : State, s.nextTurn = .engine → step s = .next t →
    t.ctrl = s.ctrl ∧ t.err = s.err ∧ t.errcode = s.errcode ∧ t.cfg = s.cfg ∧
    t.hbRdata = s.hbRdata ∧ t.sReady = s.sReady ∧ t.agenda = s.laterTurns ∧
    (∀ a : Nat, t.bufByte a = s.bufByte a) ∧
    (t.queue = s.queue ∨ (s.op = .idle ∧ t.queue = s.queue.drop 1)) ∧
    (t.azero = s.azero ∨ (s.op = .idle ∧ t.op = .attn))

/-- While the sink does not accept, an engine that offers a sample waits, for any number of turns, and
BUSY stays 1. An empty agenda gives the engine every turn (the model's choice of log 1), and a turn
that leaves the state as it is is the model's form of "waits" (log 12). -/
def Obligations.EngineWaitsForTheSink : Prop :=
  ∀ (n : Nat) (s : State), s.sValid = true → s.sReady = false →
    s.agenda = [] → runSteps n s = .next s ∧ s.status.getLsbD 0 = true

/-- R129's joint step: what is transferred is the offered sample, SCOUNT counts it, and this happens on
an engine turn whenever a sample is offered to a sink that accepts. -/
def Obligations.TransferDeliversTheOfferedSample : Prop :=
  ∀ (s : State) (rest : List Turn), Inv s → s.sValid = true → s.sReady = true →
    ∃ (v : Word) (t : State), s.sData = some v ∧
      step { s with agenda := .engine :: rest } = .next t ∧
      t.stream = s.stream ++ [v] ∧ t.scount.toNat = (s.scount.toNat + 1) % 2 ^ 32

/-- Once offered, a sample stays offered and unchanged until the transfer (an engine turn with an
accepting sink) or reset. -/
def Obligations.OfferIsHeldUntilTheTransfer : Prop :=
  ∀ s t : State, s.sValid = true → step s = .next t → s.nextTurn ≠ .reset →
    ¬ (s.nextTurn = .engine ∧ s.sReady = true) → t.sValid = true ∧ t.sData = s.sData

/-! ### Runs of whole commands

An empty agenda gives every turn to the engine (the model's choice of log 1), so these are the runs in
which the host and the sink do nothing; what the other turns leave alone is stated below. -/

/-- A MOD dispatched with an accepting sink and no other agent acting runs `8 * len * SPB` engine steps,
emits the bit-tones of its range in order, counts them, and completes. -/
def Obligations.ModRunEmitsItsRange : Prop :=
  ∀ (s : State) (base : BitVec 9) (len : BitVec 10),
    s.cfg.wf = true → s.sReady = true → s.agenda = [] → base.toNat + len.toNat ≤ 512 →
    ∃ t u, exec (.mod base len) s = .next t ∧
      runSteps (8 * len.toNat * s.cfg.spb.toNat) t = .next u ∧
      u.stream = s.stream ++ rangeSamples s base.toNat len.toNat ∧
      u.scount = s.scount + BitVec.ofNat 32 (8 * len.toNat * s.cfg.spb.toNat) ∧
      u.op = .idle ∧ u.queue = s.queue ∧ u.done = (s.done || s.qempty)

/-- The closed form of a MOD's samples (41_afsk_modulator.md section 3) from the CMD write that queues
it, the engine idle and RUN = 1: sample `n` is entry `n mod 84` of the tone of bit
`(n div 84) mod 8` of buffer byte `base + n div 672`, the buffer as it is at the write. -/
def Obligations.ModSampleClosedForm : Prop :=
  ∀ (s : State) (base : BitVec 9) (len : BitVec 10),
    Inv s → s.cfg.spb = .s84 → s.sReady = true → s.run = true → s.err = false → s.locked = false →
    base.toNat + len.toNat ≤ 512 →
    s.agenda = [.write 3#10 (encode (.mod base len))] →
    ∃ u, runSteps (2 + 672 * len.toNat) s = .next u ∧ u.op = .idle ∧
      u.stream.length = s.stream.length + 672 * len.toNat ∧
      ∀ n, n < 672 * len.toNat →
        u.stream[s.stream.length + n]? =
          (s.cfg.rom (BitVec.ofBool
            ((s.bufByte (base.toNat + n / 672)).getLsbD (n / 84 % 8))))[n % 84]?

/-- A BIT emits exactly the `SPB` samples of its tone, from index 0, and completes. -/
def Obligations.BitRunEmitsOneBitTone : Prop :=
  ∀ (s : State) (v : BitVec 1), s.cfg.wf = true → s.sReady = true → s.agenda = [] →
    ∃ t u, exec (.bit v) s = .next t ∧ runSteps s.cfg.spb.toNat t = .next u ∧
      u.stream = s.stream ++ s.cfg.rom v ∧ (s.cfg.rom v).length = s.cfg.spb.toNat ∧
      u.scount = s.scount + BitVec.ofNat 32 s.cfg.spb.toNat ∧
      u.op = .idle ∧ u.queue = s.queue ∧ u.done = (s.done || s.qempty)

/-- A SIL emits exactly `SPB` samples, 84 in the fixed build, each the pattern `0x00000000`. -/
def Obligations.SilRunEmitsOneSilenceUnit : Prop :=
  ∀ s : State, s.sReady = true → s.agenda = [] →
    ∃ t u, exec .sil s = .next t ∧ runSteps s.cfg.spb.toNat t = .next u ∧
      (s.cfg.spb = .s84 → u.stream = s.stream ++ List.replicate 84 0x00000000#32) ∧
      u.stream = s.stream ++ List.replicate s.cfg.spb.toNat 0x00000000#32 ∧
      u.scount = s.scount + BitVec.ofNat 32 s.cfg.spb.toNat ∧
      u.op = .idle ∧ u.queue = s.queue ∧ u.done = (s.done || s.qempty)

/-- An ATTN takes `d * 44100` engine steps after its dispatch: in mode 0 they put nothing on the stream,
whatever the sink does; in mode 1, with an accepting sink, as many zero samples. -/
def Obligations.AttnRunIsSilentOrZeros : Prop :=
  ∀ (s : State) (d : BitVec 8), s.agenda = [] → (s.attnZero = true → s.sReady = true) →
    ∃ t u, exec (.attn d) s = .next t ∧ runSteps (d.toNat * 44100) t = .next u ∧
      u.stream = s.stream ++
        (if s.attnZero then List.replicate (d.toNat * 44100) 0x00000000#32 else []) ∧
      u.scount = s.scount + (if s.attnZero then BitVec.ofNat 32 (d.toNat * 44100) else 0#32) ∧
      u.op = .idle ∧ u.queue = s.queue ∧ u.done = (s.done || s.qempty)

/-- The stream is the concatenation of the commands' samples in the order of the queue: from an idle
engine with RUN = 1, ERR = 0 and an accepting sink, the whole queue runs to its end. -/
def Obligations.QueueRunConcatenatesItsCommands : Prop :=
  ∀ s : State, Inv s → s.op = .idle → s.run = true → s.err = false → s.sReady = true →
    s.agenda = [] →
    ∃ u, runSteps (queueSteps s.cfg s.queue) s = .next u ∧
      u.stream = s.stream ++ queueSamples s s.queue ∧
      u.scount = s.scount + BitVec.ofNat 32 (queueSamples s s.queue).length ∧
      u.queue = [] ∧ u.op = .idle ∧ u.done = (s.done || decide (s.queue ≠ []))

/-- Eight BITs of a byte's bits, least significant first, give the same stream as a MOD of that byte. -/
def Obligations.EightBitsEqualAModOfTheByte : Prop :=
  ∀ (s : State) (a : BitVec 9), s.cfg.wf = true → s.op = .idle → s.run = true → s.err = false →
    s.sReady = true → s.agenda = [] →
    let b := s.bufByte a.toNat
    let bits := (List.range 8).map fun j => encode (.bit (BitVec.ofBool (b.getLsbD j)))
    ∃ u v, runSteps (8 * (1 + s.cfg.spb.toNat)) { s with queue := bits } = .next u ∧
      runSteps (1 + 8 * s.cfg.spb.toNat) { s with queue := [encode (.mod a 1#10)] } = .next v ∧
      u.stream = v.stream ∧ u.scount = v.scount ∧ u.op = .idle ∧ v.op = .idle

/-- The samples of a run of the engine depend only on the queued words, the buffer's bytes, the
attention mode and the configuration: not on SCOUNT, DONE, the interrupt enables, the host's last
read, or what the engine record held. -/
def Obligations.SamplesDependOnlyOnQueueBufferModeAndTable : Prop :=
  ∀ (n : Nat) (s r u v : State),
    s.op = .idle → r.op = .idle → s.run = true → r.run = true → s.err = false → r.err = false →
    s.sReady = true → r.sReady = true → s.agenda = [] → r.agenda = [] →
    s.queue = r.queue → (∀ a, a < 512 → s.bufByte a = r.bufByte a) → s.attnZero = r.attnZero →
    s.cfg = r.cfg → runSteps n s = .next u → runSteps n r = .next v →
    ∃ xs : List Word, u.stream = s.stream ++ xs ∧ v.stream = r.stream ++ xs

/-! ### Invariants and safety -/

/-- The invariant at reset. -/
def Obligations.InvHoldsAtReset : Prop := Inv State.reset

/-- Every step keeps the invariant, from every state, whichever agent acts. -/
def Obligations.EveryStepKeepsInv : Prop :=
  ∀ s t : State, Inv s → step s = .next t → Inv t

/-- No state of the invariant stops: the block raises no trap, and the model's own faults and its
refusal of an illegal queued word are never met. -/
def Obligations.InvStatesNeverStop : Prop :=
  ∀ s : State, Inv s → ∃ t, step s = .next t

/-- The configuration, the tone table in it, is never written. The buffer's bytes change only by a host
write to the BUF window or by reset (an unwritten byte keeps its drawn value, whatever it is), and
while a command is queued or running only by reset, so a MOD emits the bytes that stood in the
buffer when it was queued. -/
def Obligations.TableIsFixedAndBufferChangesOnlyByHostOrReset : Prop :=
  ∀ s t : State, step s = .next t →
    t.cfg = s.cfg ∧
    (s.nextTurn ≠ .reset → (∀ a d, s.nextTurn = .write a d → a.toNat / 128 ≠ 4) →
      ∀ b : Nat, t.bufByte b = s.bufByte b) ∧
    (s.nextTurn ≠ .reset → s.locked = true → ∀ b : Nat, t.bufByte b = s.bufByte b)

/-- R34 as a rule of every step: a host write to SCOUNT (or reset) sets it to 0, otherwise it rises
mod 2^32 by the samples the step transferred, and a silent ATTN iteration transfers none. -/
def Obligations.ScountCountsTheTransferredSamples : Prop :=
  ∀ s t : State, step s = .next t →
    ((s.nextTurn = .reset ∨ ∃ d, s.nextTurn = .write 4#10 d) → t.scount = 0#32) ∧
    (s.nextTurn ≠ .reset → (∀ d, s.nextTurn ≠ .write 4#10 d) →
      t.scount.toNat = (s.scount.toNat + (t.stream.length - s.stream.length)) % 2 ^ 32 ∧
      t.stream.length ≤ s.stream.length + 1 ∧
      (s.op = .attn → s.azero = false → t.stream = s.stream ∧ t.scount = s.scount))

/-- R125 as a rule of every step: what a step adds to the stream is one `TONE_ROM` entry or `+0.0`. -/
def Obligations.EverySampleIsATableEntryOrZero : Prop :=
  ∀ s t : State, step s = .next t →
    t.stream = s.stream ∨
    ∃ v, t.stream = s.stream ++ [v] ∧ (v ∈ s.cfg.space ∨ v ∈ s.cfg.mark ∨ v = 0x00000000#32)

/-- R130: a sample is emitted only on an engine turn, with an accepting sink, by a running MOD, BIT,
SIL or ATTN with `azero` = 1, and an idle engine offers nothing. -/
def Obligations.OnlyARunningCommandEmits : Prop :=
  (∀ s t : State, step s = .next t → t.stream ≠ s.stream →
    s.nextTurn = .engine ∧ s.sReady = true ∧
    (s.op = .mod ∨ s.op = .bit ∨ s.op = .sil ∨ (s.op = .attn ∧ s.azero = true))) ∧
  (∀ s : State, s.op = .idle → s.sValid = false)

/-- R44: the dispatch of an ATTN latches CTRL.ATTN_ZERO, no later step of the ATTN changes the latch
(a CTRL write among them), and reset clears it. -/
def Obligations.AttentionModeIsLatchedAtDispatch : Prop :=
  (∀ (s t : State) (d : BitVec 8), d ≠ 0#8 → exec (.attn d) s = .next t →
    t.op = .attn ∧ t.azero = s.ctrl.getLsbD 1) ∧
  (∀ s t : State, s.op = .attn → step s = .next t → s.nextTurn ≠ .reset → t.azero = s.azero) ∧
  (∀ s t : State, step s = .next t → s.nextTurn = .reset → t.azero = false) ∧
  State.reset.azero = false

/-- DONE rises only when a command completes with the queue empty, on an engine turn; every such
completion leaves it set; and only a STATUS write of bit 3 or reset clears it. -/
def Obligations.DoneIsSetByTheLastCompletion : Prop :=
  ∀ s t : State, step s = .next t →
    (s.done = false → t.done = true →
      s.nextTurn = .engine ∧ t.op = .idle ∧ t.queue = [] ∧ s.locked = true) ∧
    (s.op ≠ .idle → t.op = .idle → s.nextTurn ≠ .reset →
      t.done = (s.done || decide (t.queue = []))) ∧
    (s.done = true → t.done = false →
      s.nextTurn = .reset ∨ ∃ d, s.nextTurn = .write 2#10 d ∧ d.getLsbD 3 = true)

/-- A running command is not stopped: the same step is taken with any other CTRL, ERR and ERRCODE. -/
def Obligations.RunningCommandIgnoresRunAndErr : Prop :=
  ∀ (s t : State) (c : BitVec 4) (e : Bool) (x : BitVec 4),
    s.op ≠ .idle → s.nextTurn = .engine → step s = .next t →
    step { s with ctrl := c, err := e, errcode := x } =
      .next { t with ctrl := c, err := e, errcode := x }

/-- The host and the sink change neither the engine record nor the stream, and the queue only grows at
its tail, by a CMD write. -/
def Obligations.HostAndSinkLeaveTheEngineAlone : Prop :=
  ∀ s t : State, step s = .next t → s.nextTurn ≠ .engine → s.nextTurn ≠ .reset →
    t.op = s.op ∧ t.ptr = s.ptr ∧ t.left = s.left ∧ t.cur = s.cur ∧ t.bitn = s.bitn ∧
    t.tone = s.tone ∧ t.k = s.k ∧ t.acnt = s.acnt ∧ t.azero = s.azero ∧ t.stream = s.stream ∧
    (t.queue = s.queue ∨
      ∃ c, s.nextTurn = .write 3#10 c ∧ legalWord c = true ∧ t.queue = s.queue ++ [c])

/-- A step latches an error only as a refused CMD write (illegal word, or legal word to a full queue)
or a BUF write while locked; nothing else is an error. -/
def Obligations.OnlyRefusedAccessesLatchErrors : Prop :=
  ∀ s t : State, step s = .next t → s.err = false → t.err = true →
    (∃ c, s.nextTurn = .write 3#10 c ∧
      (decode c = .error .illegalOpcode ∧ t.errcode = 1#4 ∨
       decode c = .error .reservedBits ∧ t.errcode = 2#4 ∨
       decode c = .error .bufRange ∧ t.errcode = 3#4 ∨
       legalWord c = true ∧ s.queue.length = 16 ∧ t.errcode = 4#4)) ∨
    (∃ a d, s.nextTurn = .write a d ∧ a.toNat / 128 = 4 ∧ s.locked = true ∧ t.errcode = 5#4)

/-- R202: a refused access latches its code when ERR = 0, changes nothing when ERR = 1, and the code is
kept until the host clears it or reset. -/
def Obligations.FirstErrorWins : Prop :=
  (∀ (s : State) (c : Word) (e : CmdError) (rest : List Turn),
    (decode c = .error e ∨ (legalWord c = true ∧ s.queue.length = 16 ∧ e = .cmdqOverflow)) →
    step { s with agenda := .write 3#10 c :: rest } = .next (
      if s.err then { s with agenda := rest }
      else { s with agenda := rest, err := true, errcode := e.code })) ∧
  (∀ (s : State) (a : BitVec 10) (d : Word) (rest : List Turn),
    a.toNat / 128 = 4 → s.locked = true →
    step { s with agenda := .write a d :: rest } = .next (
      if s.err then { s with agenda := rest }
      else { s with agenda := rest, err := true, errcode := 5#4 })) ∧
  (∀ s t : State, step s = .next t → s.err = true → s.nextTurn ≠ .reset →
    (∀ d, s.nextTurn = .write 2#10 d → d.getLsbD 4 = false) →
    t.err = true ∧ t.errcode = s.errcode)

/-- What a host may rely on after a STATUS read (20_memory.md section 7): LOCKED = 0 means that the engine
stays idle with an empty queue, and the stream as it is, until a CMD write; BUSY = 0 with RUN = 0
means that no command is dispatched until a CTRL write of RUN = 1: the engine stays idle and, unless a
reset empties the queue, every word in it stays queued. -/
def Obligations.EngineStaysIdleUntilTheHostActs : Prop :=
  ∀ (n : Nat) (s t : State), runSteps n s = .next t →
    (s.locked = false → (∀ c, Turn.write 3#10 c ∉ s.agenda) →
      t.locked = false ∧ t.stream = s.stream) ∧
    (s.op = .idle → s.run = false → (∀ d, Turn.write 1#10 d ∈ s.agenda → d.getLsbD 0 = false) →
      t.op = .idle ∧ t.run = false ∧ t.stream = s.stream ∧
      (Turn.reset ∉ s.agenda → ∃ later, t.queue = s.queue ++ later))

/-- Quiescence and the end of a run (43_command_engine.md R157). A quiescent engine has no enabled step: its
turn answers the state less the turn, the model's form of taking none (log 12). It stays quiescent
until a CMD write with RUN = 1 and ERR = 0, a CTRL write of RUN = 1, or a STATUS write that clears ERR.
A run that has ended stays ended, normally or not as before, with no further sample, whatever the
engine's and the sink's later turns are. -/
def Obligations.QuiescentUntilAHostWrite : Prop :=
  (∀ (s : State) (rest : List Turn), s.quiescent = true →
    step { s with agenda := .engine :: rest } = .next { s with agenda := rest }) ∧
  (∀ s t : State, s.quiescent = true → step s = .next t → t.quiescent = false →
    ∃ d, (s.nextTurn = .write 3#10 d ∧ s.ctrl.getLsbD 0 = true ∧ s.err = false) ∨
      (s.nextTurn = .write 1#10 d ∧ d.getLsbD 0 = true) ∨
      (s.nextTurn = .write 2#10 d ∧ s.err = true ∧ d.getLsbD 4 = true)) ∧
  (∀ s t : State, s.ended = true → step s = .next t → s.nextTurn ≠ .reset →
    t.ended = true ∧ t.endedNormally = s.endedNormally ∧ t.stream = s.stream)

/-! ### The host's accesses -/

/-- Every host read: the value of the register map, and no other change; the buffer's four bytes
little-endian; unmapped offsets and CMD read 0. -/
def Obligations.HostReadsReturnTheRegisterMap : Prop :=
  ∀ (s : State) (rest : List Turn) (a : BitVec 10), ∃ v : Word,
    step { s with agenda := .read a :: rest } = .next { s with agenda := rest, hbRdata := v } ∧
    (a.toNat = 0 → v = 0x4146534B#32) ∧
    (a.toNat = 1 → v.toNat = s.ctrl.toNat) ∧
    (a.toNat = 2 → v = s.status) ∧
    (a.toNat = 3 → v = 0#32) ∧
    (a.toNat = 4 → v = s.scount) ∧
    (a.toNat = 5 → v.toNat = 512 * 2 ^ 16 + 16 * 2 ^ 8 + s.cfg.spb.toNat) ∧
    (6 ≤ a.toNat → a.toNat < 512 → v = 0#32) ∧
    (512 ≤ a.toNat → a.toNat < 640 → v.toNat =
      (s.bufByte (4 * (a.toNat - 512))).toNat + (s.bufByte (4 * (a.toNat - 512) + 1)).toNat * 2 ^ 8 +
      (s.bufByte (4 * (a.toNat - 512) + 2)).toNat * 2 ^ 16 +
      (s.bufByte (4 * (a.toNat - 512) + 3)).toNat * 2 ^ 24) ∧
    (640 ≤ a.toNat → v = 0#32)

/-- The STATUS word as a number, from its fields: every reserved bit is 0. -/
def Obligations.StatusWordIsTheSumOfItsFields : Prop :=
  ∀ s : State, s.queue.length ≤ 16 →
    s.status.toNat =
      (if s.op = .idle then 0 else 1) + (if s.queue = [] then 2 else 0) +
      (if s.queue.length = 16 then 4 else 0) + (if s.done then 8 else 0) +
      (if s.err then 16 else 0) + (if s.op = .idle ∧ s.queue = [] then 0 else 32) +
      s.errcode.toNat * 2 ^ 8 + s.queue.length * 2 ^ 16

/-- R29: the BUSY bit that a host reads is 1 exactly when a command runs, during the silent iterations
of an ATTN too. -/
def Obligations.BusyBitShowsARunningCommand : Prop :=
  ∀ (s : State) (rest : List Turn), ∃ v : Word,
    step { s with agenda := .read 2#10 :: rest } = .next { s with agenda := rest, hbRdata := v } ∧
    (v.getLsbD 0 = true ↔ s.op ≠ .idle) ∧
    (s.op = .attn → s.azero = false → v.getLsbD 0 = true)

/-- R30: QCOUNT (bits [20:16]), QEMPTY (bit 1) and QFULL (bit 2) show the waiting commands. -/
def Obligations.QueueBitsShowTheWaitingCommands : Prop :=
  ∀ s : State, s.queue.length ≤ 16 →
    s.status.toNat / 2 ^ 16 % 2 ^ 5 = s.queue.length ∧
    (s.status.getLsbD 1 = true ↔ s.status.toNat / 2 ^ 16 % 2 ^ 5 = 0) ∧
    (s.status.getLsbD 2 = true ↔ s.status.toNat / 2 ^ 16 % 2 ^ 5 = 16)

/-- R35: PARAM reports the parameters, with the configured `SPB` in bits [7:0], and ignores writes. -/
def Obligations.ParamReportsTheParameters : Prop :=
  ∀ (s : State) (rest : List Turn) (d : Word), ∃ v : Word,
    step { s with agenda := .read 5#10 :: rest } = .next { s with agenda := rest, hbRdata := v } ∧
    v.toNat % 2 ^ 8 = s.cfg.spb.toNat ∧ v.toNat / 2 ^ 8 % 2 ^ 8 = 16 ∧ v.toNat / 2 ^ 16 = 512 ∧
    (s.cfg.spb = .s84 → v = 0x02001054#32) ∧
    step { s with agenda := .write 5#10 d :: rest } = .next { s with agenda := rest }

/-- A CTRL write sets the four fields at once from bits [3:0] and changes nothing else. -/
def Obligations.CtrlWriteSetsItsFourFields : Prop :=
  ∀ (s : State) (rest : List Turn) (d : Word), ∃ c : BitVec 4,
    step { s with agenda := .write 1#10 d :: rest } = .next { s with agenda := rest, ctrl := c } ∧
    c.toNat = d.toNat % 16

/-- A STATUS write clears DONE on bit 3, ERR and ERRCODE on bit 4, and nothing else. -/
def Obligations.StatusWriteClearsTheNamedFlags : Prop :=
  ∀ (s : State) (rest : List Turn) (d : Word),
    step { s with agenda := .write 2#10 d :: rest } = .next { s with
      agenda := rest
      done := s.done && !d.getLsbD 3
      err := s.err && !d.getLsbD 4
      errcode := if d.getLsbD 4 then 0#4 else s.errcode }

/-- A legal CMD write to a queue that is not full is appended at the tail, whatever RUN, ERR and BUSY
are, and changes nothing else. -/
def Obligations.LegalCmdWriteIsQueued : Prop :=
  ∀ (s : State) (rest : List Turn) (c : Word), legalWord c = true → s.queue.length ≠ 16 →
    step { s with agenda := .write 3#10 c :: rest } =
      .next { s with agenda := rest, queue := s.queue ++ [c] }

/-- R174: any SCOUNT write clears it, whatever the data, and changes nothing else. -/
def Obligations.ScountWriteClears : Prop :=
  ∀ (s : State) (rest : List Turn) (d : Word),
    step { s with agenda := .write 4#10 d :: rest } =
      .next { s with agenda := rest, scount := 0#32 }

/-- R36: a write to BUF word `j` of an unlocked buffer stores its four bytes at `4j` to `4j+3`,
little-endian, every other byte and every register as before; the word reads back; a locked
buffer stores nothing. -/
def Obligations.BufWordWritesItsFourBytes : Prop :=
  ∀ (s : State) (rest : List Turn) (j : Nat) (d : Word), j < 128 →
    let a := BitVec.ofNat 10 (512 + j)
    (s.locked = false → ∃ t, step { s with agenda := .write a d :: rest } = .next t ∧
      t = { s with agenda := rest, mem := t.mem } ∧
      (∀ n, n < 4 → (t.bufByte (4 * j + n)).toNat = d.toNat / 2 ^ (8 * n) % 2 ^ 8) ∧
      (∀ b, (b < 4 * j ∨ 4 * j + 4 ≤ b) → t.bufByte b = s.bufByte b) ∧
      step { t with agenda := .read a :: rest } = .next { t with hbRdata := d }) ∧
    (s.locked = true → ∃ t, step { s with agenda := .write a d :: rest } = .next t ∧
      ∀ b, t.bufByte b = s.bufByte b) ∧
    ∃ v : Word, step { s with agenda := .read a :: rest } =
        .next { s with agenda := rest, hbRdata := v } ∧
      v.toNat = (s.bufByte (4 * j)).toNat + (s.bufByte (4 * j + 1)).toNat * 2 ^ 8 +
        (s.bufByte (4 * j + 2)).toNat * 2 ^ 16 + (s.bufByte (4 * j + 3)).toNat * 2 ^ 24

/-- R66: the buffer is locked exactly when a command runs or waits; STATUS bit 5 shows it; a locked BUF
write stores nothing and raises BUF_LOCKED; a BUF read is allowed and changes nothing. -/
def Obligations.LockedBufferRefusesWritesAndAllowsReads : Prop :=
  ∀ (s : State) (rest : List Turn) (j : Nat) (d : Word), j < 128 →
    let a := BitVec.ofNat 10 (512 + j)
    (s.locked = true ↔ s.status.getLsbD 0 = true ∨ 0 < s.queue.length) ∧
    s.status.getLsbD 5 = s.locked ∧
    (s.locked = true →
      step { s with agenda := .write a d :: rest } = .next (
        if s.err then { s with agenda := rest }
        else { s with agenda := rest, err := true, errcode := 5#4 }) ∧
      ∃ v : Word, step { s with agenda := .read a :: rest } =
          .next { s with agenda := rest, hbRdata := v } ∧
        ∀ n, n < 4 → v.toNat / 2 ^ (8 * n) % 2 ^ 8 = (s.bufByte (4 * j + n)).toNat)

/-- R176: writes to ID, PARAM and unmapped offsets change nothing; a CMD write is the only write that
queues anything; a read of CMD returns 0. -/
def Obligations.IgnoredWritesChangeNothing : Prop :=
  (∀ (s : State) (rest : List Turn) (a : BitVec 10) (d : Word),
    (a.toNat = 0 ∨ 5 ≤ a.toNat ∧ a.toNat < 512 ∨ 640 ≤ a.toNat) →
    step { s with agenda := .write a d :: rest } = .next { s with agenda := rest }) ∧
  (∀ (s t : State) (a : BitVec 10) (d : Word), s.nextTurn = .write a d → step s = .next t →
    t.queue ≠ s.queue → a = 3#10) ∧
  (∀ (s : State) (rest : List Turn),
    step { s with agenda := .read 3#10 :: rest } = .next { s with agenda := rest, hbRdata := 0#32 })

/-- R47: the interrupt line from the STATUS and CTRL bits that a host reads, and 0 after reset. -/
def Obligations.IrqFollowsItsEnabledFlags : Prop :=
  (∀ s : State, s.irq =
    ((s.status.getLsbD 3 && s.ctrl.getLsbD 2) || (s.status.getLsbD 4 && s.ctrl.getLsbD 3))) ∧
  State.reset.irq = false

/-! ### Reset and the default table -/

/-- The state after reset: the registers as a host reads them, the queue empty, the engine idle,
nothing offered, no interrupt. That no buffer byte is listed, each being a free value, is the
model's form of "unspecified" (log 5), and the configuration is the default one (log 6). -/
def Obligations.ResetStateReadsAsTheSpecSays : Prop :=
  State.reset.readReg .id = 0x4146534B#32 ∧ State.reset.readReg .ctrl = 0x00000000#32 ∧
  State.reset.readReg .status = 0x00000002#32 ∧ State.reset.readReg .scount = 0x00000000#32 ∧
  State.reset.readReg .param = 0x02001054#32 ∧ State.reset.queue = [] ∧ State.reset.op = .idle ∧
  State.reset.sValid = false ∧ State.reset.irq = false ∧ State.reset.mem = []

/-- A reset turn from any state: the block's state is the reset state (the record and registers as
listed, nothing in the buffer's list: log 5), the samples already accepted stay, and the configuration
stays. That the sink's level, the host's last read and the agenda stay is the model's choice (log 9). -/
def Obligations.ResetTurnReplacesTheBlockState : Prop :=
  ∀ (s : State) (rest : List Turn), ∃ t,
    step { s with agenda := .reset :: rest } = .next t ∧
    t.ctrl = 0#4 ∧ t.status = 0x00000002#32 ∧ t.scount = 0#32 ∧ t.queue = [] ∧ t.op = .idle ∧
    t.ptr = 0#10 ∧ t.left = 0#10 ∧ t.cur = 0#8 ∧ t.bitn = 0#3 ∧ t.tone = 0#1 ∧ t.k = 0#7 ∧
    t.acnt = 0#24 ∧ t.azero = false ∧ t.sValid = false ∧ t.irq = false ∧ t.mem = [] ∧
    t.cfg = s.cfg ∧ t.stream = s.stream ∧ t.sReady = s.sReady ∧ t.hbRdata = s.hbRdata ∧
    t.agenda = rest

/-- The default table: both tones start at `+0.0`; every other entry, the row `k = 84` included, is a
finite normal number of magnitude at most 1.0. -/
def Obligations.DefaultTableIsFiniteAndInRange : Prop :=
  config85.wf = true ∧ standardConfig.wf = true ∧
  ∀ t : BitVec 1, ((config85.rom t)[0]? = some 0x00000000#32) ∧
    ((standardConfig.rom t) = (config85.rom t).take 84) ∧
    ∀ w ∈ (config85.rom t).drop 1,
      0x00800000 ≤ w.toNat % 2 ^ 31 ∧ w.toNat % 2 ^ 31 ≤ 0x3F800000
end

