-- ==== Sys2Proof/Laws/Config.lean ====
section
/-! SUPPORT. The sizes of the tone table and of a unit. -/

namespace Sys2Proof

/-- In a well-formed table each tone has `SPB` entries. -/
theorem Config.rom_length (c : Config) (h : c.wf = true) (t : BitVec 1) :
    (c.rom t).length = c.spb.toNat := by
  simp only [Config.wf, Bool.and_eq_true, beq_iff_eq] at h
  unfold Config.rom
  split_ifs
  · exact h.2
  · exact h.1

/-- `SPB` is 84 or 85. -/
theorem SamplesPerBit.toNat_bounds (b : SamplesPerBit) : 84 ≤ b.toNat ∧ b.toNat ≤ 85 := by
  cases b <;> decide

end Sys2Proof
end

