-- ==== Sys2Proof/Laws/State.lean ====
section
/-! SUPPORT. For each named update of the state, what it makes of each field: true by definition, for
simp, so that no later proof unfolds a record update. -/

namespace Sys2Proof.Machine

variable (s : State)

@[simp] theorem State.emit_ctrl (v : Word) : (s.emit v).ctrl = s.ctrl := rfl
@[simp] theorem State.emit_done (v : Word) : (s.emit v).done = s.done := rfl
@[simp] theorem State.emit_err (v : Word) : (s.emit v).err = s.err := rfl
@[simp] theorem State.emit_errcode (v : Word) : (s.emit v).errcode = s.errcode := rfl
@[simp] theorem State.emit_scount (v : Word) : (s.emit v).scount = s.scount + 1#32 := rfl
@[simp] theorem State.emit_queue (v : Word) : (s.emit v).queue = s.queue := rfl
@[simp] theorem State.emit_op (v : Word) : (s.emit v).op = s.op := rfl
@[simp] theorem State.emit_ptr (v : Word) : (s.emit v).ptr = s.ptr := rfl
@[simp] theorem State.emit_left (v : Word) : (s.emit v).left = s.left := rfl
@[simp] theorem State.emit_cur (v : Word) : (s.emit v).cur = s.cur := rfl
@[simp] theorem State.emit_bitn (v : Word) : (s.emit v).bitn = s.bitn := rfl
@[simp] theorem State.emit_tone (v : Word) : (s.emit v).tone = s.tone := rfl
@[simp] theorem State.emit_k (v : Word) : (s.emit v).k = s.k := rfl
@[simp] theorem State.emit_acnt (v : Word) : (s.emit v).acnt = s.acnt := rfl
@[simp] theorem State.emit_azero (v : Word) : (s.emit v).azero = s.azero := rfl
@[simp] theorem State.emit_mem (v : Word) : (s.emit v).mem = s.mem := rfl
@[simp] theorem State.emit_draws (v : Word) : (s.emit v).draws = s.draws := rfl
@[simp] theorem State.emit_cfg (v : Word) : (s.emit v).cfg = s.cfg := rfl
@[simp] theorem State.emit_hbRdata (v : Word) : (s.emit v).hbRdata = s.hbRdata := rfl
@[simp] theorem State.emit_sReady (v : Word) : (s.emit v).sReady = s.sReady := rfl
@[simp] theorem State.emit_received (v : Word) : (s.emit v).received = v :: s.received := rfl
@[simp] theorem State.emit_agenda (v : Word) : (s.emit v).agenda = s.agenda := rfl
@[simp] theorem State.emit_bufByte (v : Word) (i : Nat) : (s.emit v).bufByte i = s.bufByte i := rfl
@[simp] theorem State.emit_memRead (v : Word) (i : Nat) : (s.emit v).memRead i = s.memRead i := rfl
@[simp] theorem State.emit_romRead (v : Word) (t : BitVec 1) (i : BitVec 7) : (s.emit v).romRead t i = s.romRead t i := rfl

@[simp] theorem State.push_ctrl (c : Word) : (s.push c).ctrl = s.ctrl := rfl
@[simp] theorem State.push_done (c : Word) : (s.push c).done = s.done := rfl
@[simp] theorem State.push_err (c : Word) : (s.push c).err = s.err := rfl
@[simp] theorem State.push_errcode (c : Word) : (s.push c).errcode = s.errcode := rfl
@[simp] theorem State.push_scount (c : Word) : (s.push c).scount = s.scount := rfl
@[simp] theorem State.push_queue (c : Word) : (s.push c).queue = s.queue ++ [c] := rfl
@[simp] theorem State.push_op (c : Word) : (s.push c).op = s.op := rfl
@[simp] theorem State.push_ptr (c : Word) : (s.push c).ptr = s.ptr := rfl
@[simp] theorem State.push_left (c : Word) : (s.push c).left = s.left := rfl
@[simp] theorem State.push_cur (c : Word) : (s.push c).cur = s.cur := rfl
@[simp] theorem State.push_bitn (c : Word) : (s.push c).bitn = s.bitn := rfl
@[simp] theorem State.push_tone (c : Word) : (s.push c).tone = s.tone := rfl
@[simp] theorem State.push_k (c : Word) : (s.push c).k = s.k := rfl
@[simp] theorem State.push_acnt (c : Word) : (s.push c).acnt = s.acnt := rfl
@[simp] theorem State.push_azero (c : Word) : (s.push c).azero = s.azero := rfl
@[simp] theorem State.push_mem (c : Word) : (s.push c).mem = s.mem := rfl
@[simp] theorem State.push_draws (c : Word) : (s.push c).draws = s.draws := rfl
@[simp] theorem State.push_cfg (c : Word) : (s.push c).cfg = s.cfg := rfl
@[simp] theorem State.push_hbRdata (c : Word) : (s.push c).hbRdata = s.hbRdata := rfl
@[simp] theorem State.push_sReady (c : Word) : (s.push c).sReady = s.sReady := rfl
@[simp] theorem State.push_received (c : Word) : (s.push c).received = s.received := rfl
@[simp] theorem State.push_agenda (c : Word) : (s.push c).agenda = s.agenda := rfl
@[simp] theorem State.push_bufByte (c : Word) (i : Nat) : (s.push c).bufByte i = s.bufByte i := rfl
@[simp] theorem State.push_memRead (c : Word) (i : Nat) : (s.push c).memRead i = s.memRead i := rfl
@[simp] theorem State.push_romRead (c : Word) (t : BitVec 1) (i : BitVec 7) : (s.push c).romRead t i = s.romRead t i := rfl

@[simp] theorem State.memWrite_ctrl (a : Nat) (v : Byte) : (s.memWrite a v).ctrl = s.ctrl := rfl
@[simp] theorem State.memWrite_done (a : Nat) (v : Byte) : (s.memWrite a v).done = s.done := rfl
@[simp] theorem State.memWrite_err (a : Nat) (v : Byte) : (s.memWrite a v).err = s.err := rfl
@[simp] theorem State.memWrite_errcode (a : Nat) (v : Byte) : (s.memWrite a v).errcode = s.errcode := rfl
@[simp] theorem State.memWrite_scount (a : Nat) (v : Byte) : (s.memWrite a v).scount = s.scount := rfl
@[simp] theorem State.memWrite_queue (a : Nat) (v : Byte) : (s.memWrite a v).queue = s.queue := rfl
@[simp] theorem State.memWrite_op (a : Nat) (v : Byte) : (s.memWrite a v).op = s.op := rfl
@[simp] theorem State.memWrite_ptr (a : Nat) (v : Byte) : (s.memWrite a v).ptr = s.ptr := rfl
@[simp] theorem State.memWrite_left (a : Nat) (v : Byte) : (s.memWrite a v).left = s.left := rfl
@[simp] theorem State.memWrite_cur (a : Nat) (v : Byte) : (s.memWrite a v).cur = s.cur := rfl
@[simp] theorem State.memWrite_bitn (a : Nat) (v : Byte) : (s.memWrite a v).bitn = s.bitn := rfl
@[simp] theorem State.memWrite_tone (a : Nat) (v : Byte) : (s.memWrite a v).tone = s.tone := rfl
@[simp] theorem State.memWrite_k (a : Nat) (v : Byte) : (s.memWrite a v).k = s.k := rfl
@[simp] theorem State.memWrite_acnt (a : Nat) (v : Byte) : (s.memWrite a v).acnt = s.acnt := rfl
@[simp] theorem State.memWrite_azero (a : Nat) (v : Byte) : (s.memWrite a v).azero = s.azero := rfl
@[simp] theorem State.memWrite_mem (a : Nat) (v : Byte) : (s.memWrite a v).mem = Memory.write s.mem a v := rfl
@[simp] theorem State.memWrite_draws (a : Nat) (v : Byte) : (s.memWrite a v).draws = s.draws := rfl
@[simp] theorem State.memWrite_cfg (a : Nat) (v : Byte) : (s.memWrite a v).cfg = s.cfg := rfl
@[simp] theorem State.memWrite_hbRdata (a : Nat) (v : Byte) : (s.memWrite a v).hbRdata = s.hbRdata := rfl
@[simp] theorem State.memWrite_sReady (a : Nat) (v : Byte) : (s.memWrite a v).sReady = s.sReady := rfl
@[simp] theorem State.memWrite_received (a : Nat) (v : Byte) : (s.memWrite a v).received = s.received := rfl
@[simp] theorem State.memWrite_agenda (a : Nat) (v : Byte) : (s.memWrite a v).agenda = s.agenda := rfl
@[simp] theorem State.memWrite_romRead (a : Nat) (v : Byte) (t : BitVec 1) (i : BitVec 7) : (s.memWrite a v).romRead t i = s.romRead t i := rfl

@[simp] theorem State.complete_ctrl : (s.complete).ctrl = s.ctrl := rfl
@[simp] theorem State.complete_done : (s.complete).done = (s.done || s.qempty) := rfl
@[simp] theorem State.complete_err : (s.complete).err = s.err := rfl
@[simp] theorem State.complete_errcode : (s.complete).errcode = s.errcode := rfl
@[simp] theorem State.complete_scount : (s.complete).scount = s.scount := rfl
@[simp] theorem State.complete_queue : (s.complete).queue = s.queue := rfl
@[simp] theorem State.complete_op : (s.complete).op = .idle := rfl
@[simp] theorem State.complete_ptr : (s.complete).ptr = s.ptr := rfl
@[simp] theorem State.complete_left : (s.complete).left = s.left := rfl
@[simp] theorem State.complete_cur : (s.complete).cur = s.cur := rfl
@[simp] theorem State.complete_bitn : (s.complete).bitn = s.bitn := rfl
@[simp] theorem State.complete_tone : (s.complete).tone = s.tone := rfl
@[simp] theorem State.complete_k : (s.complete).k = s.k := rfl
@[simp] theorem State.complete_acnt : (s.complete).acnt = s.acnt := rfl
@[simp] theorem State.complete_azero : (s.complete).azero = s.azero := rfl
@[simp] theorem State.complete_mem : (s.complete).mem = s.mem := rfl
@[simp] theorem State.complete_draws : (s.complete).draws = s.draws := rfl
@[simp] theorem State.complete_cfg : (s.complete).cfg = s.cfg := rfl
@[simp] theorem State.complete_hbRdata : (s.complete).hbRdata = s.hbRdata := rfl
@[simp] theorem State.complete_sReady : (s.complete).sReady = s.sReady := rfl
@[simp] theorem State.complete_received : (s.complete).received = s.received := rfl
@[simp] theorem State.complete_agenda : (s.complete).agenda = s.agenda := rfl
@[simp] theorem State.complete_bufByte (i : Nat) : (s.complete).bufByte i = s.bufByte i := rfl
@[simp] theorem State.complete_memRead (i : Nat) : (s.complete).memRead i = s.memRead i := rfl
@[simp] theorem State.complete_romRead (t : BitVec 1) (i : BitVec 7) : (s.complete).romRead t i = s.romRead t i := rfl

@[simp] theorem State.clearErr_ctrl : (s.clearErr).ctrl = s.ctrl := rfl
@[simp] theorem State.clearErr_done : (s.clearErr).done = s.done := rfl
@[simp] theorem State.clearErr_err : (s.clearErr).err = false := rfl
@[simp] theorem State.clearErr_errcode : (s.clearErr).errcode = 0#4 := rfl
@[simp] theorem State.clearErr_scount : (s.clearErr).scount = s.scount := rfl
@[simp] theorem State.clearErr_queue : (s.clearErr).queue = s.queue := rfl
@[simp] theorem State.clearErr_op : (s.clearErr).op = s.op := rfl
@[simp] theorem State.clearErr_ptr : (s.clearErr).ptr = s.ptr := rfl
@[simp] theorem State.clearErr_left : (s.clearErr).left = s.left := rfl
@[simp] theorem State.clearErr_cur : (s.clearErr).cur = s.cur := rfl
@[simp] theorem State.clearErr_bitn : (s.clearErr).bitn = s.bitn := rfl
@[simp] theorem State.clearErr_tone : (s.clearErr).tone = s.tone := rfl
@[simp] theorem State.clearErr_k : (s.clearErr).k = s.k := rfl
@[simp] theorem State.clearErr_acnt : (s.clearErr).acnt = s.acnt := rfl
@[simp] theorem State.clearErr_azero : (s.clearErr).azero = s.azero := rfl
@[simp] theorem State.clearErr_mem : (s.clearErr).mem = s.mem := rfl
@[simp] theorem State.clearErr_draws : (s.clearErr).draws = s.draws := rfl
@[simp] theorem State.clearErr_cfg : (s.clearErr).cfg = s.cfg := rfl
@[simp] theorem State.clearErr_hbRdata : (s.clearErr).hbRdata = s.hbRdata := rfl
@[simp] theorem State.clearErr_sReady : (s.clearErr).sReady = s.sReady := rfl
@[simp] theorem State.clearErr_received : (s.clearErr).received = s.received := rfl
@[simp] theorem State.clearErr_agenda : (s.clearErr).agenda = s.agenda := rfl
@[simp] theorem State.clearErr_bufByte (i : Nat) : (s.clearErr).bufByte i = s.bufByte i := rfl
@[simp] theorem State.clearErr_memRead (i : Nat) : (s.clearErr).memRead i = s.memRead i := rfl
@[simp] theorem State.clearErr_romRead (t : BitVec 1) (i : BitVec 7) : (s.clearErr).romRead t i = s.romRead t i := rfl

@[simp] theorem State.clearDone_ctrl : (s.clearDone).ctrl = s.ctrl := rfl
@[simp] theorem State.clearDone_done : (s.clearDone).done = false := rfl
@[simp] theorem State.clearDone_err : (s.clearDone).err = s.err := rfl
@[simp] theorem State.clearDone_errcode : (s.clearDone).errcode = s.errcode := rfl
@[simp] theorem State.clearDone_scount : (s.clearDone).scount = s.scount := rfl
@[simp] theorem State.clearDone_queue : (s.clearDone).queue = s.queue := rfl
@[simp] theorem State.clearDone_op : (s.clearDone).op = s.op := rfl
@[simp] theorem State.clearDone_ptr : (s.clearDone).ptr = s.ptr := rfl
@[simp] theorem State.clearDone_left : (s.clearDone).left = s.left := rfl
@[simp] theorem State.clearDone_cur : (s.clearDone).cur = s.cur := rfl
@[simp] theorem State.clearDone_bitn : (s.clearDone).bitn = s.bitn := rfl
@[simp] theorem State.clearDone_tone : (s.clearDone).tone = s.tone := rfl
@[simp] theorem State.clearDone_k : (s.clearDone).k = s.k := rfl
@[simp] theorem State.clearDone_acnt : (s.clearDone).acnt = s.acnt := rfl
@[simp] theorem State.clearDone_azero : (s.clearDone).azero = s.azero := rfl
@[simp] theorem State.clearDone_mem : (s.clearDone).mem = s.mem := rfl
@[simp] theorem State.clearDone_draws : (s.clearDone).draws = s.draws := rfl
@[simp] theorem State.clearDone_cfg : (s.clearDone).cfg = s.cfg := rfl
@[simp] theorem State.clearDone_hbRdata : (s.clearDone).hbRdata = s.hbRdata := rfl
@[simp] theorem State.clearDone_sReady : (s.clearDone).sReady = s.sReady := rfl
@[simp] theorem State.clearDone_received : (s.clearDone).received = s.received := rfl
@[simp] theorem State.clearDone_agenda : (s.clearDone).agenda = s.agenda := rfl
@[simp] theorem State.clearDone_bufByte (i : Nat) : (s.clearDone).bufByte i = s.bufByte i := rfl
@[simp] theorem State.clearDone_memRead (i : Nat) : (s.clearDone).memRead i = s.memRead i := rfl
@[simp] theorem State.clearDone_romRead (t : BitVec 1) (i : BitVec 7) : (s.clearDone).romRead t i = s.romRead t i := rfl

@[simp] theorem State.resetBlock_ctrl : (s.resetBlock).ctrl = 0#4 := rfl
@[simp] theorem State.resetBlock_done : (s.resetBlock).done = false := rfl
@[simp] theorem State.resetBlock_err : (s.resetBlock).err = false := rfl
@[simp] theorem State.resetBlock_errcode : (s.resetBlock).errcode = 0#4 := rfl
@[simp] theorem State.resetBlock_scount : (s.resetBlock).scount = 0#32 := rfl
@[simp] theorem State.resetBlock_queue : (s.resetBlock).queue = [] := rfl
@[simp] theorem State.resetBlock_op : (s.resetBlock).op = .idle := rfl
@[simp] theorem State.resetBlock_ptr : (s.resetBlock).ptr = 0#10 := rfl
@[simp] theorem State.resetBlock_left : (s.resetBlock).left = 0#10 := rfl
@[simp] theorem State.resetBlock_cur : (s.resetBlock).cur = 0#8 := rfl
@[simp] theorem State.resetBlock_bitn : (s.resetBlock).bitn = 0#3 := rfl
@[simp] theorem State.resetBlock_tone : (s.resetBlock).tone = 0#1 := rfl
@[simp] theorem State.resetBlock_k : (s.resetBlock).k = 0#7 := rfl
@[simp] theorem State.resetBlock_acnt : (s.resetBlock).acnt = 0#24 := rfl
@[simp] theorem State.resetBlock_azero : (s.resetBlock).azero = false := rfl
@[simp] theorem State.resetBlock_mem : (s.resetBlock).mem = [] := rfl
@[simp] theorem State.resetBlock_draws : (s.resetBlock).draws = s.draws + 1 := rfl
@[simp] theorem State.resetBlock_cfg : (s.resetBlock).cfg = s.cfg := rfl
@[simp] theorem State.resetBlock_hbRdata : (s.resetBlock).hbRdata = s.hbRdata := rfl
@[simp] theorem State.resetBlock_sReady : (s.resetBlock).sReady = s.sReady := rfl
@[simp] theorem State.resetBlock_received : (s.resetBlock).received = s.received := rfl
@[simp] theorem State.resetBlock_agenda : (s.resetBlock).agenda = s.agenda := rfl

@[simp] theorem State.raise_ctrl (e : CmdError) : (s.raise e).ctrl = s.ctrl := by
  unfold State.raise; split <;> rfl
@[simp] theorem State.raise_done (e : CmdError) : (s.raise e).done = s.done := by
  unfold State.raise; split <;> rfl
@[simp] theorem State.raise_scount (e : CmdError) : (s.raise e).scount = s.scount := by
  unfold State.raise; split <;> rfl
@[simp] theorem State.raise_queue (e : CmdError) : (s.raise e).queue = s.queue := by
  unfold State.raise; split <;> rfl
@[simp] theorem State.raise_op (e : CmdError) : (s.raise e).op = s.op := by
  unfold State.raise; split <;> rfl
@[simp] theorem State.raise_ptr (e : CmdError) : (s.raise e).ptr = s.ptr := by
  unfold State.raise; split <;> rfl
@[simp] theorem State.raise_left (e : CmdError) : (s.raise e).left = s.left := by
  unfold State.raise; split <;> rfl
@[simp] theorem State.raise_cur (e : CmdError) : (s.raise e).cur = s.cur := by
  unfold State.raise; split <;> rfl
@[simp] theorem State.raise_bitn (e : CmdError) : (s.raise e).bitn = s.bitn := by
  unfold State.raise; split <;> rfl
@[simp] theorem State.raise_tone (e : CmdError) : (s.raise e).tone = s.tone := by
  unfold State.raise; split <;> rfl
@[simp] theorem State.raise_k (e : CmdError) : (s.raise e).k = s.k := by
  unfold State.raise; split <;> rfl
@[simp] theorem State.raise_acnt (e : CmdError) : (s.raise e).acnt = s.acnt := by
  unfold State.raise; split <;> rfl
@[simp] theorem State.raise_azero (e : CmdError) : (s.raise e).azero = s.azero := by
  unfold State.raise; split <;> rfl
@[simp] theorem State.raise_mem (e : CmdError) : (s.raise e).mem = s.mem := by
  unfold State.raise; split <;> rfl
@[simp] theorem State.raise_draws (e : CmdError) : (s.raise e).draws = s.draws := by
  unfold State.raise; split <;> rfl
@[simp] theorem State.raise_cfg (e : CmdError) : (s.raise e).cfg = s.cfg := by
  unfold State.raise; split <;> rfl
@[simp] theorem State.raise_hbRdata (e : CmdError) : (s.raise e).hbRdata = s.hbRdata := by
  unfold State.raise; split <;> rfl
@[simp] theorem State.raise_sReady (e : CmdError) : (s.raise e).sReady = s.sReady := by
  unfold State.raise; split <;> rfl
@[simp] theorem State.raise_received (e : CmdError) : (s.raise e).received = s.received := by
  unfold State.raise; split <;> rfl
@[simp] theorem State.raise_agenda (e : CmdError) : (s.raise e).agenda = s.agenda := by
  unfold State.raise; split <;> rfl
@[simp] theorem storeWord_ctrl (j : BitVec 7) (d : Word) : (storeWord j d s).ctrl = s.ctrl := rfl
@[simp] theorem storeWord_done (j : BitVec 7) (d : Word) : (storeWord j d s).done = s.done := rfl
@[simp] theorem storeWord_err (j : BitVec 7) (d : Word) : (storeWord j d s).err = s.err := rfl
@[simp] theorem storeWord_errcode (j : BitVec 7) (d : Word) : (storeWord j d s).errcode = s.errcode := rfl
@[simp] theorem storeWord_scount (j : BitVec 7) (d : Word) : (storeWord j d s).scount = s.scount := rfl
@[simp] theorem storeWord_queue (j : BitVec 7) (d : Word) : (storeWord j d s).queue = s.queue := rfl
@[simp] theorem storeWord_op (j : BitVec 7) (d : Word) : (storeWord j d s).op = s.op := rfl
@[simp] theorem storeWord_ptr (j : BitVec 7) (d : Word) : (storeWord j d s).ptr = s.ptr := rfl
@[simp] theorem storeWord_left (j : BitVec 7) (d : Word) : (storeWord j d s).left = s.left := rfl
@[simp] theorem storeWord_cur (j : BitVec 7) (d : Word) : (storeWord j d s).cur = s.cur := rfl
@[simp] theorem storeWord_bitn (j : BitVec 7) (d : Word) : (storeWord j d s).bitn = s.bitn := rfl
@[simp] theorem storeWord_tone (j : BitVec 7) (d : Word) : (storeWord j d s).tone = s.tone := rfl
@[simp] theorem storeWord_k (j : BitVec 7) (d : Word) : (storeWord j d s).k = s.k := rfl
@[simp] theorem storeWord_acnt (j : BitVec 7) (d : Word) : (storeWord j d s).acnt = s.acnt := rfl
@[simp] theorem storeWord_azero (j : BitVec 7) (d : Word) : (storeWord j d s).azero = s.azero := rfl
@[simp] theorem storeWord_draws (j : BitVec 7) (d : Word) : (storeWord j d s).draws = s.draws := rfl
@[simp] theorem storeWord_cfg (j : BitVec 7) (d : Word) : (storeWord j d s).cfg = s.cfg := rfl
@[simp] theorem storeWord_hbRdata (j : BitVec 7) (d : Word) : (storeWord j d s).hbRdata = s.hbRdata := rfl
@[simp] theorem storeWord_sReady (j : BitVec 7) (d : Word) : (storeWord j d s).sReady = s.sReady := rfl
@[simp] theorem storeWord_received (j : BitVec 7) (d : Word) : (storeWord j d s).received = s.received := rfl
@[simp] theorem storeWord_agenda (j : BitVec 7) (d : Word) : (storeWord j d s).agenda = s.agenda := rfl

@[simp] theorem State.raise_err (e : CmdError) : (s.raise e).err = true := by
  unfold State.raise; split
  · assumption
  · rfl
theorem State.raise_errcode (e : CmdError) :
    (s.raise e).errcode = if s.err then s.errcode else e.code := by
  unfold State.raise; split <;> rfl
@[simp] theorem State.raise_bufByte (e : CmdError) (i : Nat) : (s.raise e).bufByte i = s.bufByte i := by
  unfold State.raise; split <;> rfl

/-- The stream grows at its end. -/
@[simp] theorem State.emit_stream (v : Word) : (s.emit v).stream = s.stream ++ [v] := by
  simp [State.stream, State.emit]

end Sys2Proof.Machine
end

