-- ==== Sys2Proof/Laws/Memory.lean ====
section
/-! SUPPORT. The frame buffer's laws: read after write, every operation keeps the canonical form, and
equal buffers are equal data. -/

namespace Sys2Proof.Machine

/-- A byte just written reads back. -/
@[simp] theorem Memory.lookup_write_same (m : List Host.Cell) (a : Nat) (v : Byte) :
    Memory.lookup (Memory.write m a v) a = some v := by
  induction m with
  | nil => simp [Memory.write, Memory.lookup]
  | cons cell m ih =>
    obtain ⟨b, w⟩ := cell
    unfold Memory.write
    split_ifs with hlt heq
    · simp [Memory.lookup]
    · simp [Memory.lookup]
    · simp [Memory.lookup, heq, ih]

/-- A write leaves every other address alone. -/
theorem Memory.lookup_write_other (m : List Host.Cell) (a c : Nat) (v : Byte) (h : c ≠ a) :
    Memory.lookup (Memory.write m a v) c = Memory.lookup m c := by
  induction m with
  | nil => simp [Memory.write, Memory.lookup, h]
  | cons cell m ih =>
    obtain ⟨b, w⟩ := cell
    unfold Memory.write
    split_ifs with hlt heq
    · simp [Memory.lookup, h]
    · subst heq; simp [Memory.lookup, h]
    · simp [Memory.lookup, ih]

/-- Addresses strictly rising, read as a lower bound on the tail. -/
theorem Memory.rising_cons_iff (a : Nat) (v : Byte) (m : List Host.Cell) :
    Memory.rising ((a, v) :: m) = true ↔ Memory.rising m = true ∧ ∀ cell ∈ m, a < cell.1 := by
  induction m generalizing a v with
  | nil => simp [Memory.rising]
  | cons cell m ih =>
    obtain ⟨b, w⟩ := cell
    rw [Memory.rising, Bool.and_eq_true, decide_eq_true_iff]
    constructor
    · rintro ⟨hab, hm⟩
      refine ⟨hm, fun c hc => ?_⟩
      rcases List.mem_cons.1 hc with rfl | hc
      · exact hab
      · exact hab.trans (((ih b w).1 hm).2 c hc)
    · exact fun ⟨hm, hlow⟩ => ⟨hlow (b, w) (by simp), hm⟩

/-- What a write lists: the written byte and entries that were there. -/
theorem Memory.mem_write (m : List Host.Cell) (a : Nat) (v : Byte) (cell : Host.Cell)
    (h : cell ∈ Memory.write m a v) : cell = (a, v) ∨ cell ∈ m := by
  induction m with
  | nil => simpa [Memory.write] using h
  | cons c m ih =>
    obtain ⟨b, w⟩ := c
    unfold Memory.write at h
    split_ifs at h with hlt heq
    · simpa using h
    · rcases List.mem_cons.1 h with h | h <;> simp [h]
    · rcases List.mem_cons.1 h with h | h
      · simp [h]
      · rcases ih h with h | h <;> simp [h]

/-- A write keeps the addresses strictly rising. -/
theorem Memory.rising_write (m : List Host.Cell) (a : Nat) (v : Byte) (h : Memory.rising m = true) :
    Memory.rising (Memory.write m a v) = true := by
  induction m with
  | nil => simp [Memory.write, Memory.rising]
  | cons c m ih =>
    obtain ⟨b, w⟩ := c
    obtain ⟨hm, hlow⟩ := (Memory.rising_cons_iff b w m).1 h
    unfold Memory.write
    split_ifs with hlt heq
    · rw [Memory.rising_cons_iff]
      refine ⟨h, fun cell hc => ?_⟩
      rcases List.mem_cons.1 hc with rfl | hc
      · exact hlt
      · exact hlt.trans (hlow cell hc)
    · subst heq; rw [Memory.rising_cons_iff]; exact ⟨hm, hlow⟩
    · rw [Memory.rising_cons_iff]
      refine ⟨ih hm, fun cell hc => ?_⟩
      rcases Memory.mem_write m a v cell hc with rfl | hc
      · simp; omega
      · exact hlow cell hc

/-- A write inside the buffer keeps the canonical form. -/
theorem Memory.wf_write (m : List Host.Cell) (a : Nat) (v : Byte) (h : Memory.wf m = true)
    (ha : a < bufBytes) : Memory.wf (Memory.write m a v) = true := by
  simp only [Memory.wf, Bool.and_eq_true, List.all_eq_true, decide_eq_true_iff] at h ⊢
  refine ⟨Memory.rising_write m a v h.1, fun cell hc => ?_⟩
  rcases Memory.mem_write m a v cell hc with rfl | hc
  · exact ha
  · exact h.2 cell hc

/-- The empty buffer, that of the reset state, has the canonical form. -/
theorem Memory.wf_nil : Memory.wf [] = true := rfl

/-- An address below every listed one has no entry. -/
theorem Memory.lookup_below (m : List Host.Cell) (a : Nat) (h : ∀ cell ∈ m, a < cell.1) :
    Memory.lookup m a = none := by
  induction m with
  | nil => rfl
  | cons c m ih =>
    obtain ⟨b, w⟩ := c
    have hb : a < b := h (b, w) (by simp)
    rw [Memory.lookup, if_neg (by omega)]
    exact ih fun cell hc => h cell (by simp [hc])

/-- Two buffers in canonical form that hold the same bytes are the same list. -/
theorem Memory.ext (m n : List Host.Cell) (hm : Memory.rising m = true) (hn : Memory.rising n = true)
    (h : ∀ a, Memory.lookup m a = Memory.lookup n a) : m = n := by
  induction m generalizing n with
  | nil =>
    cases n with
    | nil => rfl
    | cons d n => obtain ⟨b, w⟩ := d; simpa [Memory.lookup] using h b
  | cons c m ih =>
    obtain ⟨a, v⟩ := c
    obtain ⟨hm', hlow⟩ := (Memory.rising_cons_iff a v m).1 hm
    cases n with
    | nil => simpa [Memory.lookup] using h a
    | cons d n =>
      obtain ⟨b, w⟩ := d
      obtain ⟨hn', hlow'⟩ := (Memory.rising_cons_iff b w n).1 hn
      have hab : a = b := by
        rcases Nat.lt_trichotomy a b with hlt | heq | hgt
        · have := h a
          rw [Memory.lookup, if_pos rfl, Memory.lookup_below ((b, w) :: n) a (by
            intro cell hc
            rcases List.mem_cons.1 hc with rfl | hc
            · exact hlt
            · exact hlt.trans (hlow' cell hc))] at this
          cases this
        · exact heq
        · have := h b
          rw [Memory.lookup_below ((a, v) :: m) b (by
            intro cell hc
            rcases List.mem_cons.1 hc with rfl | hc
            · exact hgt
            · exact hgt.trans (hlow cell hc)), Memory.lookup, if_pos rfl] at this
          cases this
      subst hab
      have hvw : v = w := by simpa [Memory.lookup] using h a
      subst hvw
      rw [ih n hm' hn' fun e => ?_]
      by_cases he : e = a
      · subst he; rw [Memory.lookup_below m e hlow, Memory.lookup_below n e hlow']
      · simpa [Memory.lookup, he] using h e

/-- The byte that a store leaves at its own address. -/
@[simp] theorem State.bufByte_memWrite_same (s : State) (a : Nat) (v : Byte) :
    (s.memWrite a v).bufByte a = v := by
  simp [State.bufByte, State.memWrite]

/-- A store leaves every other address alone. -/
theorem State.bufByte_memWrite_other (s : State) (a c : Nat) (v : Byte) (h : c ≠ a) :
    (s.memWrite a v).bufByte c = s.bufByte c := by
  simp [State.bufByte, State.memWrite, Memory.lookup_write_other _ _ _ _ h, State.unlistedByte]

/-- A read inside the buffer gives its byte. -/
theorem State.memRead_of_lt (s : State) (a : Nat) (h : a < bufBytes) :
    s.memRead a = .ok (s.bufByte a) := by
  simp [State.memRead, h]

/-- All a buffer read can do: give the byte of an address in the buffer. -/
theorem State.memRead_ok (s : State) (a : Nat) (b : Byte) (h : s.memRead a = .ok b) :
    a < bufBytes ∧ b = s.bufByte a := by
  unfold State.memRead at h
  split_ifs at h with ha
  exact ⟨ha, by simpa using h.symm⟩

end Sys2Proof.Machine
end

