-- ==== Sys2Proof/Laws/Ops.lean ====
section
/-! SUPPORT. For each shared operation, all it can do, said once: the ROM read, the four dispatches, the
engine's steps, the host's writes, and the step. Later proofs cite these instead of unfolding. -/

namespace Sys2Proof.Machine

/-- All a ROM read can do: give the entry at that index. -/
theorem State.romRead_ok (s : State) (t : BitVec 1) (k : BitVec 7) (w : Word)
    (h : s.romRead t k = .ok w) : (s.cfg.rom t)[k.toNat]? = some w := by
  unfold State.romRead at h
  split at h
  · simp_all
  · cases h

/-- A ROM read of an entry that is there. -/
theorem State.romRead_of_some (s : State) (t : BitVec 1) (k : BitVec 7) (w : Word)
    (h : (s.cfg.rom t)[k.toNat]? = some w) : s.romRead t k = .ok w := by
  simp [State.romRead, h]

/-- In a well-formed table every index below `SPB` has its entry. -/
theorem State.romRead_wf (s : State) (h : s.cfg.wf = true) (t : BitVec 1) (k : BitVec 7)
    (hk : k.toNat < s.cfg.spb.toNat) :
    ∃ w, (s.cfg.rom t)[k.toNat]? = some w ∧ s.romRead t k = .ok w := by
  have hl : k.toNat < (s.cfg.rom t).length := by rw [Config.rom_length _ h]; exact hk
  exact ⟨_, List.getElem?_eq_getElem hl, s.romRead_of_some t k _ (List.getElem?_eq_getElem hl)⟩

/-- The tone of a bit, by its number. -/
theorem bitTone_eq (b : Byte) (n : BitVec 3) : bitTone b n = BitVec.ofBool (b.getLsbD n.toNat) := rfl

/-- All `dispatch_MOD` can do. -/
theorem execMod_cases (base : BitVec 9) (len : BitVec 10) (s : State) :
    (len = 0#10 ∧ execMod base len s = .next s.complete) ∨
    (len ≠ 0#10 ∧ execMod base len s = .next { s with
      op := .mod, ptr := modPtr base, left := len, cur := s.bufByte base.toNat, bitn := 0#3,
      tone := bitTone (s.bufByte base.toNat) 0#3, k := 0#7 }) := by
  by_cases h : len = 0#10
  · exact .inl ⟨h, by simp [execMod, h]⟩
  · refine .inr ⟨h, ?_⟩
    have hb : base.toNat < bufBytes := base.isLt
    simp [execMod, h, s.memRead_of_lt _ hb]

/-- All `dispatch_ATTN` can do. -/
theorem execAttn_cases (d : BitVec 8) (s : State) :
    (d = 0#8 ∧ execAttn d s = .next s.complete) ∨
    (d ≠ 0#8 ∧ execAttn d s = .next { s with
      op := .attn, acnt := attnCount d, azero := s.attnZero }) := by
  by_cases h : d = 0#8
  · exact .inl ⟨h, by simp [execAttn, h]⟩
  · exact .inr ⟨h, by simp [execAttn, h]⟩

/-- The attention count is the exact product (R85). -/
theorem attnCount_toNat (d : BitVec 8) : (attnCount d).toNat = d.toNat * 44100 := by
  have := d.isLt
  simp only [attnCount, fs, BitVec.toNat_ofNat]
  omega

/-- All `step_MOD` can do when it goes on: one sample, then one of four advances. -/
theorem stepMod_cases (s t : State) (h : stepMod s = .next t) :
    ∃ w, (s.cfg.rom s.tone)[s.k.toNat]? = some w ∧
      ((s.unitGoesOn = true ∧ t = { s.emit w with k := s.k + 1#7 }) ∨
       (s.unitGoesOn = false ∧ s.bitn.toNat < 7 ∧
          t = { s.emit w with k := 0#7, bitn := s.bitn + 1#3, tone := bitTone s.cur (s.bitn + 1#3) }) ∨
       (s.unitGoesOn = false ∧ ¬ s.bitn.toNat < 7 ∧ s.left - 1#10 = 0#10 ∧
          t = { s.emit w with k := 0#7, bitn := 0#3, left := s.left - 1#10, op := .idle,
                              done := s.done || s.qempty }) ∨
       (s.unitGoesOn = false ∧ ¬ s.bitn.toNat < 7 ∧ s.left - 1#10 ≠ 0#10 ∧
          (s.ptr + 1#10).toNat < bufBytes ∧
          t = { s.emit w with k := 0#7, bitn := 0#3, left := s.left - 1#10, ptr := s.ptr + 1#10,
                              cur := s.bufByte (s.ptr + 1#10).toNat,
                              tone := bitTone (s.bufByte (s.ptr + 1#10).toNat) 0#3 })) := by
  unfold stepMod at h
  split at h
  · cases h
  · rename_i w hw
    refine ⟨w, s.romRead_ok _ _ _ hw, ?_⟩
    split at h
    · rename_i hk
      exact .inl ⟨hk, (Host.Outcome.next.inj h).symm⟩
    · rename_i hk
      have hk : s.unitGoesOn = false := by simpa using hk
      unfold finishBitTone at h
      split at h
      · rename_i hb
        exact .inr (.inl ⟨hk, hb, (Host.Outcome.next.inj h).symm⟩)
      · rename_i hb
        unfold finishByte at h
        split at h
        · rename_i hl
          exact .inr (.inr (.inl ⟨hk, hb, hl, (Host.Outcome.next.inj h).symm⟩))
        · rename_i hl
          split at h
          · cases h
          · rename_i b hr
            obtain ⟨hlt, rfl⟩ := State.memRead_ok _ _ _ hr
            exact .inr (.inr (.inr ⟨hk, hb, hl, hlt, (Host.Outcome.next.inj h).symm⟩))

/-- All `step_BIT` can do when it goes on. -/
theorem stepBit_cases (s t : State) (h : stepBit s = .next t) :
    ∃ w, (s.cfg.rom s.tone)[s.k.toNat]? = some w ∧
      ((s.unitGoesOn = true ∧ t = { s.emit w with k := s.k + 1#7 }) ∨
       (s.unitGoesOn = false ∧ t = (s.emit w).complete)) := by
  unfold stepBit at h
  split at h
  · cases h
  · rename_i w hw
    refine ⟨w, s.romRead_ok _ _ _ hw, ?_⟩
    split at h
    · rename_i hk
      exact .inl ⟨hk, (Host.Outcome.next.inj h).symm⟩
    · rename_i hk
      exact .inr ⟨by simpa using hk, (Host.Outcome.next.inj h).symm⟩

/-- All `step_SIL` can do. -/
theorem stepSil_cases (s t : State) (h : stepSil s = .next t) :
    (s.unitGoesOn = true ∧ t = { s.emit silence with k := s.k + 1#7 }) ∨
    (s.unitGoesOn = false ∧ t = (s.emit silence).complete) := by
  unfold stepSil at h
  split at h
  · rename_i hk
    exact .inl ⟨hk, (Host.Outcome.next.inj h).symm⟩
  · rename_i hk
    exact .inr ⟨by simpa using hk, (Host.Outcome.next.inj h).symm⟩

/-- All `step_ATTN` can do. -/
theorem stepAttn_cases (s t : State) (h : stepAttn s = .next t) :
    (s.acnt - 1#24 = 0#24 ∧ t = { attnSample s with acnt := s.acnt - 1#24 }.complete) ∨
    (s.acnt - 1#24 ≠ 0#24 ∧ t = { attnSample s with acnt := s.acnt - 1#24 }) := by
  unfold stepAttn at h
  split at h
  · rename_i hk
    exact .inl ⟨hk, (Host.Outcome.next.inj h).symm⟩
  · rename_i hk
    exact .inr ⟨hk, (Host.Outcome.next.inj h).symm⟩

/-- An iteration emits `+0.0` or nothing. -/
theorem attnSample_cases (s : State) :
    (s.azero = true ∧ attnSample s = s.emit silence) ∨ (s.azero = false ∧ attnSample s = s) := by
  cases h : s.azero <;> simp [attnSample, h]

/-- The four conditions of R151. -/
theorem State.canDispatch_iff (s : State) :
    s.canDispatch = true ↔ s.op = .idle ∧ s.run = true ∧ s.err = false ∧ s.queue ≠ [] := by
  simp [State.canDispatch, State.qempty, and_assoc]

/-- All an engine turn can do: nothing (no step is enabled), a dispatch, or the running command's step. -/
theorem engineStep_cases (s t : State) (h : engineStep s = .next t) :
    (t = s ∧ (s.op = .idle ∧ s.canDispatch = false ∨ s.op ≠ .idle ∧ s.sValid = true ∧ s.sReady = false)) ∨
    (s.canDispatch = true ∧ ∃ c q i, s.queue = c :: q ∧ decode c = .ok i ∧
      exec i { s with queue := q } = .next t) ∨
    (s.op ≠ .idle ∧ (s.sValid = true → s.sReady = true) ∧ runStep s = .next t) := by
  unfold engineStep at h
  split at h
  · rename_i hop
    split at h
    · rename_i hc
      refine .inr (.inl ⟨hc, ?_⟩)
      unfold dispatch at h
      split at h
      · rename_i hq
        exact absurd hq ((s.canDispatch_iff.1 hc).2.2.2)
      · rename_i c q hq
        split at h
        · rename_i i hi
          exact ⟨c, q, i, hq, hi, h⟩
        · cases h
    · rename_i hc
      exact .inl ⟨(Host.Outcome.next.inj h).symm, .inl ⟨hop, by simpa using hc⟩⟩
  · rename_i hop
    split at h
    · rename_i hv
      simp only [Bool.and_eq_true, Bool.not_eq_true'] at hv
      exact .inl ⟨(Host.Outcome.next.inj h).symm, .inr ⟨hop, hv⟩⟩
    · rename_i hv
      exact .inr (.inr ⟨hop, by simpa using hv, h⟩)

/-- The four shapes of a host write's address. -/
theorem Reg.ofAddr_cases (a : BitVec 10) :
    (Reg.ofAddr a = .id ∧ a = 0#10) ∨ (Reg.ofAddr a = .ctrl ∧ a = 1#10) ∨
    (Reg.ofAddr a = .status ∧ a = 2#10) ∨ (Reg.ofAddr a = .cmd ∧ a = 3#10) ∨
    (Reg.ofAddr a = .scount ∧ a = 4#10) ∨ (Reg.ofAddr a = .param ∧ a = 5#10) ∨
    (∃ j : BitVec 7, Reg.ofAddr a = .buf j ∧ a.toNat = 512 + j.toNat) ∨
    (Reg.ofAddr a = .unmapped ∧ 6 ≤ a.toNat ∧ a.toNat / 128 ≠ 4) := by
  unfold Reg.ofAddr
  split_ifs with h0 h1 h2 h3 h4 h5 h6
  · simp [h0]
  · simp [h1]
  · simp [h2]
  · simp [h3]
  · simp [h4]
  · simp [h5]
  · refine .inr (.inr (.inr (.inr (.inr (.inr (.inl ⟨_, rfl, ?_⟩))))))
    have := congrArg BitVec.toNat h6
    simp [BitVec.extractLsb'_toNat, Nat.shiftRight_eq_div_pow] at this ⊢
    omega
  · refine .inr (.inr (.inr (.inr (.inr (.inr (.inr ⟨rfl, ?_, ?_⟩))))))
    · by_contra hlt
      have hn : a = BitVec.ofNat 10 a.toNat := by simp
      have : a.toNat = 0 ∨ a.toNat = 1 ∨ a.toNat = 2 ∨ a.toNat = 3 ∨ a.toNat = 4 ∨ a.toNat = 5 := by
        omega
      rcases this with h | h | h | h | h | h <;> rw [h] at hn <;> contradiction
    · intro h7
      apply h6
      apply BitVec.eq_of_toNat_eq
      have := a.isLt
      simp [BitVec.extractLsb'_toNat, Nat.shiftRight_eq_div_pow]
      omega

/-- The register at the address of BUF word `j`. -/
theorem Reg.ofAddr_buf (a : BitVec 10) (h : a.toNat / 128 = 4) :
    Reg.ofAddr a = .buf (BitVec.ofNat 7 (a.toNat - 512)) := by
  rcases Reg.ofAddr_cases a with ⟨_, rfl⟩ | ⟨_, rfl⟩ | ⟨_, rfl⟩ | ⟨_, rfl⟩ | ⟨_, rfl⟩ | ⟨_, rfl⟩ |
    ⟨j, hj, hn⟩ | ⟨_, _, hn⟩
  iterate 6 (exact absurd h (by decide))
  · rw [hj, hn]; simp
  · exact absurd h hn

/-- All a CMD write can do (R173). -/
theorem writeCmd_cases (c : Word) (s : State) :
    (∃ e, decode c = .error e ∧ writeCmd c s = s.raise e) ∨
    (legalWord c = true ∧ s.queue.length = 16 ∧ writeCmd c s = s.raise .cmdqOverflow) ∨
    (legalWord c = true ∧ s.queue.length ≠ 16 ∧ writeCmd c s = s.push c) := by
  unfold writeCmd legalWord
  cases hd : decode c with
  | error e => simp
  | ok i =>
    by_cases hq : s.queue.length = 16 <;> simp [State.qfull, cmdqDepth, hq]

/-- All a BUF write can do (R175). -/
theorem writeBuf_cases (j : BitVec 7) (d : Word) (s : State) :
    (s.locked = true ∧ writeBuf j d s = s.raise .bufLocked) ∨
    (s.locked = false ∧ writeBuf j d s = storeWord j d s) := by
  cases h : s.locked <;> simp [writeBuf, h]

/-- What the raise of an error can do (R202). -/
theorem State.raise_cases (s : State) (e : CmdError) :
    (s.err = true ∧ s.raise e = s) ∨
    (s.err = false ∧ s.raise e = { s with err := true, errcode := e.code }) := by
  cases h : s.err <;> simp [State.raise, h]

/-- A STATUS write, field by field (R172). -/
theorem writeStatus_eq (d : Word) (s : State) :
    writeStatus d s = { s with
      done := s.done && !d.getLsbD 3
      err := s.err && !d.getLsbD 4
      errcode := if d.getLsbD 4 then 0#4 else s.errcode } := by
  unfold writeStatus
  cases d.getLsbD 3 <;> cases d.getLsbD 4 <;> simp [State.clearDone, State.clearErr]

/-- The four stores change only the list of bytes. -/
theorem storeWord_eq (j : BitVec 7) (d : Word) (s : State) :
    storeWord j d s = { s with mem := (storeWord j d s).mem } := rfl

/-- A byte of the stored word reads back. -/
theorem storeWord_bufByte_same (j : BitVec 7) (d : Word) (s : State) (n : Nat) (h : n < 4) :
    (storeWord j d s).bufByte (bufWordAddr j n) = wordByte d n := by
  have : n = 0 ∨ n = 1 ∨ n = 2 ∨ n = 3 := by omega
  rcases this with rfl | rfl | rfl | rfl <;> unfold storeWord <;>
    simp [State.bufByte_memWrite_other, bufWordAddr]

/-- The stores leave every other byte alone. -/
theorem storeWord_bufByte_other (j : BitVec 7) (d : Word) (s : State) (a : Nat)
    (h : a < 4 * j.toNat ∨ 4 * j.toNat + 4 ≤ a) : (storeWord j d s).bufByte a = s.bufByte a := by
  unfold storeWord
  rw [State.bufByte_memWrite_other, State.bufByte_memWrite_other, State.bufByte_memWrite_other,
    State.bufByte_memWrite_other] <;> simp only [bufWordAddr] <;> omega

/-- The stores keep the buffer's canonical form. -/
theorem storeWord_wf (j : BitVec 7) (d : Word) (s : State) (h : Memory.wf s.mem = true) :
    Memory.wf (storeWord j d s).mem = true := by
  have hj := j.isLt
  unfold storeWord
  simp only [State.memWrite_mem]
  iterate 4 (apply Memory.wf_write _ _ _ _ (by simp only [bufWordAddr, bufBytes]; omega))
  exact h

/-- The step is the turn of whoever the agenda names (log 1). -/
theorem step_eq (s : State) :
    step s = takeTurn s.nextTurn { s with agenda := s.laterTurns } := by
  obtain ⟨⟩ := s
  rename_i agenda
  cases agenda <;> rfl

/-- The step of a state whose agenda names its turn. -/
theorem step_of_agenda (s : State) (t : Turn) (rest : List Turn) (h : s.agenda = t :: rest) :
    step s = takeTurn t { s with agenda := rest } := by
  unfold step machineStep; rw [h]

/-- The step with an empty agenda is the engine's (log 1). -/
theorem step_nil (s : State) (h : s.agenda = []) : step s = engineStep s := by
  unfold step machineStep; rw [h]

/-- No step. -/
@[simp] theorem runSteps_zero (s : State) : runSteps 0 s = .next s := rfl

/-- A first step that goes on, then the others. -/
theorem runSteps_succ (n : Nat) (s t : State) (h : step s = .next t) :
    runSteps (n + 1) s = runSteps n t := by
  have : Host.Core.step Sys2Proof.core s = .next t := h
  simp only [runSteps, Host.Core.run]
  rw [this]

/-- Runs compose. -/
theorem runSteps_add (m n : Nat) (s t : State) (h : runSteps m s = .next t) :
    runSteps (m + n) s = runSteps n t := by
  induction m generalizing s with
  | zero => simp at h; subst h; simp
  | succ m ih =>
    cases hs : step s with
    | next u =>
      rw [runSteps_succ m s u hs] at h
      rw [Nat.succ_add, runSteps_succ (m + n) s u hs]
      exact ih u h
    | fault r =>
      have : Host.Core.step Sys2Proof.core s = .fault r := hs
      simp only [runSteps, Host.Core.run] at h
      rw [this] at h; cases h
    | refused r =>
      have : Host.Core.step Sys2Proof.core s = .refused r := hs
      simp only [runSteps, Host.Core.run] at h
      rw [this] at h; cases h

/-- A run that goes on takes a first step that goes on. -/
theorem runSteps_succ_inv (n : Nat) (s u : State) (h : runSteps (n + 1) s = .next u) :
    ∃ t, step s = .next t ∧ runSteps n t = .next u := by
  cases hs : step s with
  | next t => exact ⟨t, rfl, by rw [← h, runSteps_succ n s t hs]⟩
  | fault r =>
    have : Host.Core.step Sys2Proof.core s = .fault r := hs
    simp only [runSteps, Host.Core.run] at h
    rw [this] at h; cases h
  | refused r =>
    have : Host.Core.step Sys2Proof.core s = .refused r := hs
    simp only [runSteps, Host.Core.run] at h
    rw [this] at h; cases h

end Sys2Proof.Machine
end

