-- ==== Sys2Proof/Laws/Derived.lean ====
section
/-! SUPPORT. What the derived functions of the state do not depend on: the agenda. What quiescence and the
end of a run (43_command_engine.md R157) come to. And the bits of the
STATUS word one by one (10_state.md R28). -/

namespace Sys2Proof.Machine

variable (s : State) (u : List Turn)

@[simp] theorem State.agenda_busy : ({ s with agenda := u } : State).busy = s.busy := rfl
@[simp] theorem State.agenda_qempty : ({ s with agenda := u } : State).qempty = s.qempty := rfl
@[simp] theorem State.agenda_qfull : ({ s with agenda := u } : State).qfull = s.qfull := rfl
@[simp] theorem State.agenda_locked : ({ s with agenda := u } : State).locked = s.locked := rfl
@[simp] theorem State.agenda_status : ({ s with agenda := u } : State).status = s.status := rfl
@[simp] theorem State.agenda_run : ({ s with agenda := u } : State).run = s.run := rfl
@[simp] theorem State.agenda_attnZero : ({ s with agenda := u } : State).attnZero = s.attnZero := rfl
@[simp] theorem State.agenda_doneIE : ({ s with agenda := u } : State).doneIE = s.doneIE := rfl
@[simp] theorem State.agenda_errIE : ({ s with agenda := u } : State).errIE = s.errIE := rfl
@[simp] theorem State.agenda_irq : ({ s with agenda := u } : State).irq = s.irq := rfl
@[simp] theorem State.agenda_canDispatch : ({ s with agenda := u } : State).canDispatch = s.canDispatch := rfl
@[simp] theorem State.agenda_sValid : ({ s with agenda := u } : State).sValid = s.sValid := rfl
@[simp] theorem State.agenda_sData : ({ s with agenda := u } : State).sData = s.sData := rfl
@[simp] theorem State.agenda_unitGoesOn : ({ s with agenda := u } : State).unitGoesOn = s.unitGoesOn := rfl
@[simp] theorem State.agenda_quiescent : ({ s with agenda := u } : State).quiescent = s.quiescent := rfl
@[simp] theorem State.agenda_stream : ({ s with agenda := u } : State).stream = s.stream := rfl
@[simp] theorem State.agenda_bufByte (i : Nat) : ({ s with agenda := u } : State).bufByte i = s.bufByte i := rfl
@[simp] theorem State.agenda_memRead (i : Nat) : ({ s with agenda := u } : State).memRead i = s.memRead i := rfl
@[simp] theorem State.agenda_romRead (t : BitVec 1) (i : BitVec 7) : ({ s with agenda := u } : State).romRead t i = s.romRead t i := rfl
@[simp] theorem State.agenda_readReg (r : Reg) : ({ s with agenda := u } : State).readReg r = s.readReg r := rfl

/-- Quiescent is idle without an enabled dispatch (43_command_engine.md R157). -/
theorem State.quiescent_iff :
    s.quiescent = true ↔ s.op = .idle ∧ (s.queue = [] ∨ s.run = false ∨ s.err = true) := by
  simp [State.quiescent, State.qempty, or_assoc]

/-- No turn to come is the host's. -/
theorem State.hostDone_iff : s.hostDone = true ↔ ∀ t ∈ s.agenda, t.isHost = false := by
  simp [State.hostDone]

/-- The end of a run (R157). -/
theorem State.ended_iff : s.ended = true ↔ s.hostDone = true ∧ s.quiescent = true := by
  simp [State.ended]

/-- The normal end of a run (R157). -/
theorem State.endedNormally_iff :
    s.endedNormally = true ↔ s.ended = true ∧ s.queue = [] ∧ s.err = false := by
  simp [State.endedNormally, State.qempty, and_assoc]

/-- The STATUS word as nested concatenations, the lowest bit outermost. -/
theorem State.status_append : s.status = (((((((((((0#11 ++ BitVec.ofNat 5 s.queue.length) ++ 0#4) ++
    s.errcode) ++ 0#2) ++ BitVec.ofBool s.locked) ++ BitVec.ofBool s.err) ++ BitVec.ofBool s.done) ++
    BitVec.ofBool s.qfull) ++ BitVec.ofBool s.qempty) ++ BitVec.ofBool s.busy) : BitVec (31 + 1)) := rfl

/-- The lowest bit of a concatenation with one bit. -/
theorem getLsbD_append_ofBool_zero {w : Nat} (x : BitVec w) (b : Bool) :
    (x ++ BitVec.ofBool b).getLsbD 0 = b := by
  rw [BitVec.getLsbD_append]; simp

/-- The higher bits of a concatenation with one bit. -/
theorem getLsbD_append_ofBool_succ {w : Nat} (x : BitVec w) (b : Bool) (i : Nat) :
    (x ++ BitVec.ofBool b).getLsbD (i + 1) = x.getLsbD i := by
  rw [BitVec.getLsbD_append]; simp

theorem State.status_busy : s.status.getLsbD 0 = s.busy :=
  getLsbD_append_ofBool_zero _ _

theorem State.status_qempty : s.status.getLsbD 1 = s.qempty :=
  (getLsbD_append_ofBool_succ _ _ 0).trans (getLsbD_append_ofBool_zero _ _)

theorem State.status_qfull : s.status.getLsbD 2 = s.qfull :=
  (getLsbD_append_ofBool_succ _ _ 1).trans ((getLsbD_append_ofBool_succ _ _ 0).trans
    (getLsbD_append_ofBool_zero _ _))

theorem State.status_done : s.status.getLsbD 3 = s.done :=
  (getLsbD_append_ofBool_succ _ _ 2).trans ((getLsbD_append_ofBool_succ _ _ 1).trans
    ((getLsbD_append_ofBool_succ _ _ 0).trans (getLsbD_append_ofBool_zero _ _)))

theorem State.status_err : s.status.getLsbD 4 = s.err :=
  (getLsbD_append_ofBool_succ _ _ 3).trans ((getLsbD_append_ofBool_succ _ _ 2).trans
    ((getLsbD_append_ofBool_succ _ _ 1).trans ((getLsbD_append_ofBool_succ _ _ 0).trans
      (getLsbD_append_ofBool_zero _ _))))

theorem State.status_locked : s.status.getLsbD 5 = s.locked :=
  (getLsbD_append_ofBool_succ _ _ 4).trans ((getLsbD_append_ofBool_succ _ _ 3).trans
    ((getLsbD_append_ofBool_succ _ _ 2).trans ((getLsbD_append_ofBool_succ _ _ 1).trans
      ((getLsbD_append_ofBool_succ _ _ 0).trans (getLsbD_append_ofBool_zero _ _)))))

end Sys2Proof.Machine
end

