-- ==== Sys2Proof/Laws/Effects.lean ====
section
/-! SUPPORT. All that one step can do, as two inductive relations: the engine's steps
(43_command_engine.md R150 to R156) and the turn of each agent. A proof about every step is a case split
over these, with no unfolding. -/

namespace Sys2Proof.Machine

/-- All that an engine turn can make of a state. -/
inductive EngineEffect (s : State) : State → Prop
  /-- Idle, and no dispatch is enabled (R151). -/
  | rest (hop : s.op = .idle) (hno : s.canDispatch = false) : EngineEffect s s
  /-- A sample is offered and the sink does not accept (R129). -/
  | wait (hop : s.op ≠ .idle) (hv : s.sValid = true) (hr : s.sReady = false) : EngineEffect s s
  /-- The dispatch of `MOD base, 0` or `ATTN 0` (R152, R153). -/
  | emptyCommand (hcan : s.canDispatch = true) (c : Word) (q : List Word) (i : Instr)
      (hq : s.queue = c :: q) (hd : decode c = .ok i)
      (hi : (∃ base, i = .mod base 0#10) ∨ i = .attn 0#8) :
      EngineEffect s { s with queue := q, op := .idle, done := s.done || decide (q.length = 0) }
  /-- The dispatch of a MOD of at least one byte (R103). -/
  | dispatchMod (hcan : s.canDispatch = true) (c : Word) (q : List Word) (base : BitVec 9)
      (len : BitVec 10) (hq : s.queue = c :: q) (hd : decode c = .ok (.mod base len)) (hl : len ≠ 0#10) :
      EngineEffect s { s with
        queue := q, op := .mod, ptr := modPtr base, left := len, cur := s.bufByte base.toNat,
        bitn := 0#3, tone := bitTone (s.bufByte base.toNat) 0#3, k := 0#7 }
  /-- The dispatch of a BIT (R105). -/
  | dispatchBit (hcan : s.canDispatch = true) (c : Word) (q : List Word) (v : BitVec 1)
      (hq : s.queue = c :: q) (hd : decode c = .ok (.bit v)) :
      EngineEffect s { s with queue := q, op := .bit, tone := v, k := 0#7 }
  /-- The dispatch of a SIL (R126). -/
  | dispatchSil (hcan : s.canDispatch = true) (c : Word) (q : List Word)
      (hq : s.queue = c :: q) (hd : decode c = .ok .sil) :
      EngineEffect s { s with queue := q, op := .sil, k := 0#7 }
  /-- The dispatch of an ATTN of at least one second (R127). -/
  | dispatchAttn (hcan : s.canDispatch = true) (c : Word) (q : List Word) (d : BitVec 8)
      (hq : s.queue = c :: q) (hd : decode c = .ok (.attn d)) (hz : d ≠ 0#8) :
      EngineEffect s { s with queue := q, op := .attn, acnt := attnCount d, azero := s.attnZero }
  /-- A tone sample that is not the last of its unit, or a silence sample that is not (R103, R105, R126). -/
  | unitSample (w : Word) (hr : s.sReady = true) (hk : s.unitGoesOn = true)
      (hw : ((s.op = .mod ∨ s.op = .bit) ∧ (s.cfg.rom s.tone)[s.k.toNat]? = some w) ∨
        (s.op = .sil ∧ w = silence)) :
      EngineEffect s { s.emit w with k := s.k + 1#7 }
  /-- The last sample of a BIT or a SIL. -/
  | unitEnd (w : Word) (hr : s.sReady = true) (hk : s.unitGoesOn = false)
      (hw : (s.op = .bit ∧ (s.cfg.rom s.tone)[s.k.toNat]? = some w) ∨ (s.op = .sil ∧ w = silence)) :
      EngineEffect s (s.emit w).complete
  /-- The last sample of a bit-tone of a MOD: the next bit of the byte. -/
  | modNextBit (w : Word) (hop : s.op = .mod) (hr : s.sReady = true) (hk : s.unitGoesOn = false)
      (hw : (s.cfg.rom s.tone)[s.k.toNat]? = some w) (hb : s.bitn.toNat < 7) :
      EngineEffect s { s.emit w with
        k := 0#7, bitn := s.bitn + 1#3, tone := bitTone s.cur (s.bitn + 1#3) }
  /-- The last sample of a byte of a MOD: the next byte of the range. -/
  | modNextByte (w : Word) (hop : s.op = .mod) (hr : s.sReady = true) (hk : s.unitGoesOn = false)
      (hw : (s.cfg.rom s.tone)[s.k.toNat]? = some w) (hb : ¬ s.bitn.toNat < 7)
      (hl : s.left - 1#10 ≠ 0#10) (hp : (s.ptr + 1#10).toNat < bufBytes) :
      EngineEffect s { s.emit w with
        k := 0#7, bitn := 0#3, left := s.left - 1#10, ptr := s.ptr + 1#10,
        cur := s.bufByte (s.ptr + 1#10).toNat, tone := bitTone (s.bufByte (s.ptr + 1#10).toNat) 0#3 }
  /-- The last sample of a MOD. -/
  | modEnd (w : Word) (hop : s.op = .mod) (hr : s.sReady = true) (hk : s.unitGoesOn = false)
      (hw : (s.cfg.rom s.tone)[s.k.toNat]? = some w) (hb : ¬ s.bitn.toNat < 7)
      (hl : s.left - 1#10 = 0#10) :
      EngineEffect s { s.emit w with
        k := 0#7, bitn := 0#3, left := s.left - 1#10, op := .idle, done := s.done || s.qempty }
  /-- An attention iteration that is not the last, silent (mode 0). -/
  | attnSilent (hop : s.op = .attn) (hz : s.azero = false) (ha : s.acnt - 1#24 ≠ 0#24) :
      EngineEffect s { s with acnt := s.acnt - 1#24 }
  /-- The last attention iteration, silent. -/
  | attnSilentEnd (hop : s.op = .attn) (hz : s.azero = false) (ha : s.acnt - 1#24 = 0#24) :
      EngineEffect s { s with acnt := s.acnt - 1#24, op := .idle, done := s.done || s.qempty }
  /-- An attention iteration that is not the last, with its zero sample (mode 1). -/
  | attnZero (hop : s.op = .attn) (hz : s.azero = true) (hr : s.sReady = true)
      (ha : s.acnt - 1#24 ≠ 0#24) :
      EngineEffect s { s.emit silence with acnt := s.acnt - 1#24 }
  /-- The last attention iteration, with its zero sample. -/
  | attnZeroEnd (hop : s.op = .attn) (hz : s.azero = true) (hr : s.sReady = true)
      (ha : s.acnt - 1#24 = 0#24) :
      EngineEffect s { s.emit silence with
        acnt := s.acnt - 1#24, op := .idle, done := s.done || s.qempty }

/-- An engine turn that goes on has one of the effects listed. -/
theorem engineStep_effect (s t : State) (h : engineStep s = .next t) : EngineEffect s t := by
  rcases engineStep_cases s t h with ⟨rfl, hno | ⟨hop, hv, hr⟩⟩ | ⟨hcan, c, q, i, hq, hd, he⟩ |
    ⟨hop, hsink, hrun⟩
  · exact .rest hno.1 hno.2
  · exact .wait hop hv hr
  · cases i with
    | mod base len =>
      rcases execMod_cases base len { s with queue := q } with ⟨rfl, e⟩ | ⟨hl, e⟩ <;>
        rw [exec, e] at he <;> cases he
      · exact .emptyCommand hcan c q _ hq hd (.inl ⟨base, rfl⟩)
      · exact .dispatchMod hcan c q base len hq hd hl
    | bit v => cases he; exact .dispatchBit hcan c q v hq hd
    | sil => cases he; exact .dispatchSil hcan c q hq hd
    | attn d =>
      rcases execAttn_cases d { s with queue := q } with ⟨rfl, e⟩ | ⟨hz, e⟩ <;>
        rw [exec, e] at he <;> cases he
      · exact .emptyCommand hcan c q _ hq hd (.inr rfl)
      · exact .dispatchAttn hcan c q d hq hd hz
  · unfold runStep at hrun
    split at hrun
    · exact absurd ‹_› hop
    · rename_i hm
      have hr : s.sReady = true := hsink (by simp [State.sValid, hm])
      obtain ⟨w, hw, ⟨hk, rfl⟩ | ⟨hk, hb, rfl⟩ | ⟨hk, hb, hl, rfl⟩ | ⟨hk, hb, hl, hp, rfl⟩⟩ :=
        stepMod_cases _ _ hrun
      · exact .unitSample w hr hk (.inl ⟨.inl hm, hw⟩)
      · exact .modNextBit w hm hr hk hw hb
      · exact .modEnd w hm hr hk hw hb hl
      · exact .modNextByte w hm hr hk hw hb hl hp
    · rename_i hm
      have hr : s.sReady = true := hsink (by simp [State.sValid, hm])
      obtain ⟨w, hw, ⟨hk, rfl⟩ | ⟨hk, rfl⟩⟩ := stepBit_cases _ _ hrun
      · exact .unitSample w hr hk (.inl ⟨.inr hm, hw⟩)
      · exact .unitEnd w hr hk (.inl ⟨hm, hw⟩)
    · rename_i hm
      have hr : s.sReady = true := hsink (by simp [State.sValid, hm])
      obtain ⟨hk, rfl⟩ | ⟨hk, rfl⟩ := stepSil_cases _ _ hrun
      · exact .unitSample silence hr hk (.inr ⟨hm, rfl⟩)
      · exact .unitEnd silence hr hk (.inr ⟨hm, rfl⟩)
    · rename_i hm
      rcases attnSample_cases s with ⟨hz, e⟩ | ⟨hz, e⟩
      · have hr : s.sReady = true := hsink (by simp [State.sValid, hm, hz])
        obtain ⟨ha, rfl⟩ | ⟨ha, rfl⟩ := stepAttn_cases _ _ hrun <;> rw [e]
        · exact .attnZeroEnd hm hz hr ha
        · exact .attnZero hm hz hr ha
      · obtain ⟨ha, rfl⟩ | ⟨ha, rfl⟩ := stepAttn_cases _ _ hrun <;> rw [e]
        · exact .attnSilentEnd hm hz ha
        · exact .attnSilent hm hz ha

/-- All that a turn can make of a state (whose agenda has lost that turn). -/
inductive TurnEffect (s : State) : Turn → State → Prop
  | engine {t : State} (h : EngineEffect s t) : TurnEffect s .engine t
  | read (a : BitVec 10) : TurnEffect s (.read a) { s with hbRdata := s.readReg (Reg.ofAddr a) }
  | writeIgnored (a : BitVec 10) (d : Word)
      (ha : a.toNat = 0 ∨ 5 ≤ a.toNat ∧ a.toNat / 128 ≠ 4) : TurnEffect s (.write a d) s
  | writeCtrl (d : Word) : TurnEffect s (.write 1#10 d) { s with ctrl := d.setWidth 4 }
  | writeStatus (d : Word) : TurnEffect s (.write 2#10 d) { s with
      done := s.done && !d.getLsbD 3, err := s.err && !d.getLsbD 4,
      errcode := if d.getLsbD 4 then 0#4 else s.errcode }
  | writeScount (d : Word) : TurnEffect s (.write 4#10 d) { s with scount := 0#32 }
  /-- A legal command is queued (R173). -/
  | queued (c : Word) (hc : legalWord c = true) (hq : s.queue.length ≠ 16) :
      TurnEffect s (.write 3#10 c) { s with queue := s.queue ++ [c] }
  /-- A refused CMD write (R173). -/
  | refusedCmd (c : Word) (e : CmdError)
      (he : decode c = .error e ∨ legalWord c = true ∧ s.queue.length = 16 ∧ e = .cmdqOverflow) :
      TurnEffect s (.write 3#10 c) (s.raise e)
  /-- A stored BUF word (R175). -/
  | stored (a : BitVec 10) (j : BitVec 7) (d : Word) (ha : a.toNat = 512 + j.toNat)
      (hu : s.locked = false) : TurnEffect s (.write a d) (storeWord j d s)
  /-- A refused BUF write (R175). -/
  | refusedBuf (a : BitVec 10) (j : BitVec 7) (d : Word) (ha : a.toNat = 512 + j.toNat)
      (hl : s.locked = true) : TurnEffect s (.write a d) (s.raise .bufLocked)
  /-- The last poll of `wait_empty` (R92). -/
  | polled (hu : s.locked = false) : TurnEffect s .waitEmpty { s with hbRdata := s.status }
  /-- A poll that will be made again. -/
  | pollAgain (hl : s.locked = true) : TurnEffect s .waitEmpty
      { s with hbRdata := s.status, agenda := .engine :: .waitEmpty :: s.agenda }
  | sink (r : Bool) : TurnEffect s (.sink r) { s with sReady := r }
  | reset : TurnEffect s .reset s.resetBlock

/-- A host write has one of the effects listed. -/
theorem hostWrite_effect (a : BitVec 10) (d : Word) (s : State) :
    TurnEffect s (.write a d) (hostWrite a d s) := by
  unfold hostWrite
  rcases Reg.ofAddr_cases a with ⟨e, rfl⟩ | ⟨e, rfl⟩ | ⟨e, rfl⟩ | ⟨e, rfl⟩ | ⟨e, rfl⟩ | ⟨e, rfl⟩ |
    ⟨j, e, hj⟩ | ⟨e, h6, h7⟩ <;> rw [e] <;> simp only [writeReg]
  · exact .writeIgnored _ d (by decide)
  · exact .writeCtrl d
  · rw [writeStatus_eq]; exact .writeStatus d
  · rcases writeCmd_cases d s with ⟨e, he, hw⟩ | ⟨hc, hq, hw⟩ | ⟨hc, hq, hw⟩ <;> rw [hw]
    · exact .refusedCmd d e (.inl he)
    · exact .refusedCmd d _ (.inr ⟨hc, hq, rfl⟩)
    · exact .queued d hc hq
  · exact .writeScount d
  · exact .writeIgnored _ d (by decide)
  · rcases writeBuf_cases j d s with ⟨hl, hw⟩ | ⟨hu, hw⟩ <;> rw [hw]
    · exact .refusedBuf a j d hj hl
    · exact .stored a j d hj hu
  · exact .writeIgnored a d (.inr ⟨by omega, h7⟩)

/-- A turn that goes on has one of the effects listed. -/
theorem takeTurn_effect (u : Turn) (s t : State) (h : takeTurn u s = .next t) : TurnEffect s u t := by
  cases u with
  | engine => exact .engine (engineStep_effect s t h)
  | read a => cases h; exact .read a
  | write a d => cases h; exact hostWrite_effect a d s
  | waitEmpty =>
    cases h
    unfold pollEmpty
    cases hl : s.locked
    · exact .polled hl
    · exact .pollAgain hl
  | sink r => cases h; exact .sink r
  | reset => cases h; exact .reset

/-- All that a step can do: the effect of the next turn, on the state whose agenda has lost it. -/
theorem step_effect (s t : State) (h : step s = .next t) :
    TurnEffect { s with agenda := s.laterTurns } s.nextTurn t :=
  takeTurn_effect _ _ _ (by rw [← step_eq]; exact h)

/-- A turn of anyone but the engine always goes on. -/
theorem takeTurn_goes_on (u : Turn) (s : State) (hu : u ≠ .engine) : ∃ t, takeTurn u s = .next t := by
  cases u with
  | engine => exact absurd rfl hu
  | read a => exact ⟨_, rfl⟩
  | write a d => exact ⟨_, rfl⟩
  | waitEmpty => exact ⟨_, rfl⟩
  | sink r => exact ⟨_, rfl⟩
  | reset => exact ⟨_, rfl⟩

end Sys2Proof.Machine
end

