-- ==== Sys2Proof/Laws/Encoding.lean ====
section
/-! SUPPORT. The encoder and the decoder's fields as numbers, so that statements about words are plain
arithmetic. -/

namespace Sys2Proof

/-- Two words with the same number are the same word. -/
theorem word_ext (a b : Word) (h : a.toNat = b.toNat) : a = b := BitVec.eq_of_toNat_eq h

/-- A field of a word as a number (R17). -/
theorem field_toNat (c : Word) (lo n : Nat) :
    (c.extractLsb' lo n).toNat = c.toNat / 2 ^ lo % 2 ^ n := by
  simp [BitVec.extractLsb'_toNat, Nat.shiftRight_eq_div_pow]

/-- A field of a word holds a given value exactly when the numbers agree. -/
theorem field_eq_iff (c : Word) (lo n : Nat) (v : BitVec n) :
    c.extractLsb' lo n = v ↔ c.toNat / 2 ^ lo % 2 ^ n = v.toNat := by
  rw [← field_toNat]
  exact ⟨fun h => by rw [h], fun h => BitVec.eq_of_toNat_eq h⟩

/-- Format M as a number (R81). -/
theorem encode_mod_toNat (base : BitVec 9) (len : BitVec 10) :
    (encode (.mod base len)).toNat = 0x10000000 + base.toNat * 2 ^ 16 + len.toNat := by
  have hb := base.isLt
  have hl := len.isLt
  have h1 : base.toNat % 2 ^ 32 = base.toNat := Nat.mod_eq_of_lt (by omega)
  have h2 : len.toNat % 2 ^ 32 = len.toNat := Nat.mod_eq_of_lt (by omega)
  have h3 : base.toNat <<< 16 % 2 ^ 32 = base.toNat <<< 16 := by
    rw [Nat.shiftLeft_eq]; exact Nat.mod_eq_of_lt (by omega)
  have h4 : (0x10000000 : Nat) = 1 <<< 28 := by decide
  simp only [encode, BitVec.toNat_or, BitVec.toNat_shiftLeft, BitVec.toNat_setWidth, h1, h2, h3,
    BitVec.toNat_ofNat]
  rw [show 268435456 % 2 ^ 32 = 1 <<< 28 from rfl, Nat.or_assoc,
    ← Nat.shiftLeft_add_eq_or_of_lt (show len.toNat < 2 ^ 16 by omega),
    ← Nat.shiftLeft_add_eq_or_of_lt (show base.toNat <<< 16 + len.toNat < 2 ^ 28 by
      rw [Nat.shiftLeft_eq]; omega), Nat.shiftLeft_eq, Nat.shiftLeft_eq]
  omega

/-- Format B as a number (R82). -/
theorem encode_bit_toNat (v : BitVec 1) : (encode (.bit v)).toNat = 0x20000000 + v.toNat := by
  revert v; decide

/-- Format S as a number (R83). -/
theorem encode_sil_toNat : (encode .sil).toNat = 0x30000000 := rfl

/-- Format A as a number (R84). -/
theorem encode_attn_toNat (d : BitVec 8) : (encode (.attn d)).toNat = 0x40000000 + d.toNat := by
  revert d; decide

/-- The opcode as a number. -/
theorem opcodeOf_eq_iff (c : Word) (v : BitVec 4) : opcodeOf c = v ↔ c.toNat / 2 ^ 28 = v.toNat := by
  have := c.isLt
  rw [opcodeOf, field_eq_iff]
  constructor <;> intro h <;> omega

/-- All the decoder can accept: the four formats, as conditions on the word's number. -/
theorem decode_ok_cases (c : Word) (i : Instr) (h : decode c = .ok i) :
    (c.toNat / 2 ^ 28 = 1 ∧ c.toNat / 2 ^ 25 % 2 ^ 3 = 0 ∧ c.toNat / 2 ^ 10 % 2 ^ 6 = 0 ∧
      c.toNat / 2 ^ 16 % 2 ^ 9 + c.toNat % 2 ^ 10 ≤ 512 ∧
      i = .mod (c.extractLsb' 16 9) (c.extractLsb' 0 10)) ∨
    (c.toNat / 2 ^ 28 = 2 ∧ c.toNat / 2 % 2 ^ 27 = 0 ∧ i = .bit (c.extractLsb' 0 1)) ∨
    (c.toNat / 2 ^ 28 = 3 ∧ c.toNat % 2 ^ 28 = 0 ∧ i = .sil) ∨
    (c.toNat / 2 ^ 28 = 4 ∧ c.toNat / 2 ^ 8 % 2 ^ 20 = 0 ∧ i = .attn (c.extractLsb' 0 8)) := by
  unfold decode at h
  split_ifs at h with h1 h2 h3 h4
  · unfold decodeMod at h
    split_ifs at h with hr hf
    push Not at hr
    rw [opcodeOf_eq_iff] at h1
    simp only [field_eq_iff] at hr
    simp only [rangeInBuffer, field_toNat, bufBytes, decide_eq_true_iff] at hf
    simp at h1 hr hf ⊢
    refine .inl ⟨h1, hr.1, hr.2, hf, ?_⟩
    injection h with h; exact h.symm
  · unfold decodeBit at h
    split_ifs at h with hr
    rw [opcodeOf_eq_iff] at h2
    simp only [ne_eq, not_not, field_eq_iff] at hr
    simp at h2 hr ⊢
    refine .inr (.inl ⟨h2, hr, ?_⟩)
    injection h with h; exact h.symm
  · unfold decodeSil at h
    split_ifs at h with hr
    rw [opcodeOf_eq_iff] at h3
    simp only [ne_eq, not_not, field_eq_iff] at hr
    simp at h3 hr ⊢
    refine .inr (.inr (.inl ⟨h3, hr, ?_⟩))
    injection h with h; exact h.symm
  · unfold decodeAttn at h
    split_ifs at h with hr
    rw [opcodeOf_eq_iff] at h4
    simp only [ne_eq, not_not, field_eq_iff] at hr
    simp at h4 hr ⊢
    refine .inr (.inr (.inr ⟨h4, hr, ?_⟩))
    injection h with h; exact h.symm

/-- All the decoder can refuse with (R87): the other two codes come from the queue and the lock. -/
theorem decode_error_cases (c : Word) (e : CmdError) (h : decode c = .error e) :
    e = .illegalOpcode ∨ e = .reservedBits ∨ e = .bufRange := by
  unfold decode decodeMod decodeBit decodeSil decodeAttn at h
  split_ifs at h <;> (injection h with h; simp [← h])

/-- A word is legal exactly when it decodes. -/
theorem legalWord_iff (c : Word) : legalWord c = true ↔ ∃ i, decode c = .ok i := by
  unfold legalWord
  cases decode c <;> simp

end Sys2Proof
end

