-- ==== Sys2Proof/Laws/PerInstr.lean ====
section
/-! SUPPORT. Statements made per instruction, one lemma per constructor of `Instr`. -/

namespace Sys2Proof.Laws

/-- The opcode of 30_encoding.md R86. -/
def opcodeNumber : Instr → Nat
  | .mod _ _ => 1
  | .bit _ => 2
  | .sil => 3
  | .attn _ => 4

/-- A command's encoding carries its opcode in bits [31:28] (R86). -/
def EncodesItsOpcode.Statement (i : Instr) : Prop := (encode i).toNat / 2 ^ 28 = opcodeNumber i

theorem EncodesItsOpcode.mod (base : BitVec 9) (len : BitVec 10) :
    EncodesItsOpcode.Statement (.mod base len) := by
  have hb := base.isLt
  have hl := len.isLt
  rw [EncodesItsOpcode.Statement, encode_mod_toNat, opcodeNumber]
  omega

theorem EncodesItsOpcode.bit (v : BitVec 1) : EncodesItsOpcode.Statement (.bit v) := by
  have hv := v.isLt
  rw [EncodesItsOpcode.Statement, encode_bit_toNat, opcodeNumber]
  omega

theorem EncodesItsOpcode.sil : EncodesItsOpcode.Statement .sil := rfl

theorem EncodesItsOpcode.attn (d : BitVec 8) : EncodesItsOpcode.Statement (.attn d) := by
  have hd := d.isLt
  rw [EncodesItsOpcode.Statement, encode_attn_toNat, opcodeNumber]
  omega

end Sys2Proof.Laws
end

