-- ==== Sys2Proof/Machine/ToneReference.lean ====
section
/-! DEFINITION. The reference value of a tone sample, `RNE32(sin(2 * pi * f * k / 44100))`
(42_sample_synthesizer.md R121), computed in natural numbers: the phase as an exact fraction of a turn,
the sine as a fixed-point number with 128 bits after the point (log 17), the rounding of
00_scope.md R18. The machine plays the configured table; this says what the default table's words are. -/

namespace Sys2Proof.Machine

/-- 1.0 in the fixed-point form. -/
def fixedOne : Nat := 2 ^ 128

/-- `pi` in the fixed-point form, rounded down. -/
def fixedPi : Nat := 0x3243f6a8885a308d313198a2e03707344

/-- The phase of sample `k` at a frequency of `f` tenths of a hertz: `f * k / 441000` turns, whole turns
dropped, in units of 1/441000 of a turn. Exact (R121). -/
def phase (f k : Nat) : Nat := f * k % (10 * fs)

/-- The sine of the second half-turn is minus that of the first. -/
def phaseNegative (f k : Nat) : Bool := decide (5 * fs ≤ phase f k)

/-- The phase within the first quarter-turn that has the same sine up to its sign. -/
def phaseQuarter (f k : Nat) : Nat :=
  let half := phase f k % (5 * fs)
  if 2 * half ≤ 5 * fs then half else 5 * fs - half

/-- The angle of that phase, in the fixed-point form, at most `pi / 2`. -/
def phaseAngle (f k : Nat) : Nat := 2 * fixedPi * phaseQuarter f k / (10 * fs)

/-- The rest of the sine's series from the term `x^m / m!` on, signs alternating: the sum of the terms of
one sign, then that of the other. The angle's square is `sq`. -/
def sineSeries (sq : Nat) : Nat → Nat → Nat → Nat × Nat
  | 0, _, _ => (0, 0)
  | n + 1, m, term =>
    let rest := sineSeries sq n (m + 2) (term * sq / fixedOne / ((m + 1) * (m + 2)))
    (term + rest.2, rest.1)

/-- The sine of an angle of at most `pi / 2`, from 30 terms of the series, all in fixed point. -/
def fixedSine (x : Nat) : Nat :=
  let sums := sineSeries (x * x / fixedOne) 30 1 x
  sums.1 - sums.2

/-- `n / 2^d` rounded to the nearest natural number, ties to even. -/
def roundEven (n d : Nat) : Nat :=
  let q := n / 2 ^ d
  let r := n % 2 ^ d
  if 2 * r < 2 ^ d then q
  else if 2 ^ d < 2 * r then q + 1
  else q + q % 2

/-- `RNE32` of a fixed-point number of at most 1.0 that is 0 or at least 2^-104: the nearest binary32
word, ties to even, without its sign (R18; the layout of 20_memory.md R63, log 16). A significand that
rounds up to the next power of two carries into the exponent. -/
def roundBinary32 (v : Nat) : Nat :=
  if v = 0 then 0
  else (Nat.log2 v - 2) * 2 ^ 23 + roundEven v (Nat.log2 v - 23)

/-- `S_ref(f, k)` as a binary32 word, `f` in tenths of a hertz (R121). -/
def toneReference (f k : Nat) : Word :=
  let magnitude := roundBinary32 (fixedSine (phaseAngle f k))
  BitVec.ofNat 32 (if phaseNegative f k then 2 ^ 31 + magnitude else magnitude)

end Sys2Proof.Machine
end

