-- ==== Sys2Proof/Laws/ToneTable.lean ====
section
/-! SUPPORT. The table of 42_sample_synthesizer.md R122 is the reference of R121, entry by entry. -/

namespace Sys2Proof.Machine

/-- `TONE_ROM[0][k] = S_ref(F_SPACE, k)` for `k` = 0 to 84. -/
theorem spaceRow_eq_reference : spaceRow = (List.range 85).map (toneReference fSpaceTenths) := by
  decide +kernel

/-- `TONE_ROM[1][k] = S_ref(F_MARK, k)` for `k` = 0 to 84. -/
theorem markRow_eq_reference : markRow = (List.range 85).map (toneReference fMarkTenths) := by
  decide +kernel

end Sys2Proof.Machine
end

