-- ==== Sys2Proof/Tests/Slice0.lean ====
section
/-! SUPPORT. The model's own tests. Expected values are the spec's: the tables of 30_encoding.md, the
vectors of 95_test_vectors.md, the tone table of 42_sample_synthesizer.md R122; then, for each statement
with hypotheses, a concrete state and operands that meet them. -/

namespace Sys2Proof.Machine.Tests

/-! ### Well-formedness: the one check refuses an ill-formed command -/

/-- `MOD 511, 2` ends at 513 (vector E9). -/
theorem test_wellFormed_refuses_range : (Instr.mod 511#9 2#10).wellFormed = false := by decide

theorem test_wellFormed_accepts_last_byte : (Instr.mod 511#9 1#10).wellFormed = true := by decide

/-! ### Decoding, word by word from the tables of 30_encoding.md section 2 -/

/-- `0001 000 011111111 000000 0100000001`: MOD 255, 257 (R81, vector E14). -/
theorem test_decode_mod :
    decode 0b0001_000_011111111_000000_0100000001#32 = .ok (.mod 255#9 257#10) := by decide

/-- `0010 000000000000000000000000000 1`: BIT 1 (R82, vector E16). -/
theorem test_decode_bit :
    decode 0b0010_000000000000000000000000000_1#32 = .ok (.bit 1#1) := by decide

/-- `0011 0…0`: SIL (R83). -/
theorem test_decode_sil : decode 0b0011_0000000000000000000000000000#32 = .ok .sil := by decide

/-- `0100 00000000000000000000 11111111`: ATTN 255 (R84, vector E21). -/
theorem test_decode_attn :
    decode 0b0100_00000000000000000000_11111111#32 = .ok (.attn 255#8) := by decide

/-- Vectors E2, E3: the opcode is checked first. -/
theorem test_decode_illegal_opcode :
    decode 0x5FFFFFFF#32 = .error .illegalOpcode ∧ decode 0xF0000000#32 = .error .illegalOpcode := by
  decide

/-- Vectors E4 to E6, E17 to E20: reserved bits, before the range. -/
theorem test_decode_reserved_bits :
    decode 0x1FFFFFFF#32 = .error .reservedBits ∧ decode 0x12000000#32 = .error .reservedBits ∧
    decode 0x10000400#32 = .error .reservedBits ∧ decode 0x20000002#32 = .error .reservedBits ∧
    decode 0x30000001#32 = .error .reservedBits ∧ decode 0x38000000#32 = .error .reservedBits ∧
    decode 0x40000100#32 = .error .reservedBits := by
  decide

/-- Vectors E7, E8, E10: the range. -/
theorem test_decode_range :
    decode 0x10000201#32 = .error .bufRange ∧ decode 0x100003FF#32 = .error .bufRange ∧
    decode 0x10010200#32 = .error .bufRange := by
  decide

/-- The table's row MOD with its operand bits zero, as the host numbers it. -/
theorem test_tableWord : decodeTableWord 32 0x10000000 = some (.mod 0#9 0#10) := by decide

/-! ### Small states -/

/-- RUN = 1 and a queue; the rest as after reset. -/
def running (q : List Word) : State := { State.reset with ctrl := 1#4, queue := q }

/-- A MOD in its last bit-tone or elsewhere: byte 0xAB at address 0, two bytes or one to go. -/
def inMod (k : BitVec 7) (bitn : BitVec 3) (left : BitVec 10) : State :=
  { running [] with
    op := .mod, ptr := 0#10, left := left, cur := 0xAB#8, bitn := bitn, tone := bitTone 0xAB#8 bitn,
    k := k, mem := [(0, 0xAB#8), (1, 0x4E#8)] }

/-- A BIT 1 at sample `k`. -/
def inBit (k : BitVec 7) : State := { running [] with op := .bit, tone := 1#1, k := k }

/-- A SIL at sample `k`. -/
def inSil (k : BitVec 7) : State := { running [] with op := .sil, k := k }

/-- An ATTN with `n` iterations to run. -/
def inAttn (n : BitVec 24) (zero : Bool) : State :=
  { running [] with op := .attn, acnt := n, azero := zero }

/-- A field of the next state. -/
def after {α : Type} (o : Host.Outcome State Fault Refusal) (f : State → α) : Option α :=
  match o with
  | .next t => some (f t)
  | .fault _ => none
  | .refused _ => none

/-! ### One step of each kind -/

/-- The dispatch of `MOD 0, 2` with byte 0 = 0xAB: bit 0 is 1, so the first tone is mark (R100, R103). -/
theorem test_mod_dispatch :
    after (exec (.mod 0#9 2#10) { running [] with mem := [(0, 0xAB#8)] })
      (fun t => (t.op, t.cur, t.tone, t.left, t.k)) = some (.mod, 0xAB#8, 1#1, 2#10, 0#7) := by decide

/-- The last sample of the last bit of byte 0: `MARK[83]`, then byte 1 = 0x4E starts with space (R103, M7). -/
theorem test_mod_next_byte :
    after (step (inMod 83#7 7#3 2#10))
      (fun t => (t.received, t.ptr, t.cur, t.tone, t.bitn)) =
        some ([0xBEF3F99E#32], 1#10, 0x4E#8, 0#1, 0#3) := by decide

/-- `BIT 1`, sample 1 is `MARK[1]` (vector B1). -/
theorem test_bit_sample :
    after (step (inBit 1#7)) (fun t => (t.received, t.k, t.scount)) =
      some ([0x3E95C008#32], 2#7, 1#32) := by decide

/-- The last sample of a BIT completes it and sets DONE with an empty queue (R105, R153). -/
theorem test_bit_completes :
    after (step (inBit 83#7)) (fun t => (t.op, t.done, t.status)) = some (.idle, true, 0x0000000A#32) := by
  decide

/-- SIL emits `+0.0` (vector S1v). -/
theorem test_sil_sample :
    after (step (inSil 0#7)) (fun t => (t.received, t.k)) = some ([0x00000000#32], 1#7) := by decide

/-- DONE is not set while a command waits (R153). -/
theorem test_sil_completes_with_queue :
    after (step { inSil 83#7 with queue := [0x30000000#32] }) (fun t => (t.op, t.done)) =
      some (.idle, false) := by decide

/-- `ATTN 255`: 11,245,500 iterations (vector A4). -/
theorem test_attn_dispatch :
    after (exec (.attn 255#8) (running [])) (fun t => (t.op, t.acnt.toNat, t.azero)) =
      some (.attn, 11245500, false) := by decide

/-- A silent iteration needs no sink and puts nothing on the stream (R127). -/
theorem test_attn_silent :
    after (step { inAttn 1#24 false with sReady := false }) (fun t => (t.op, t.received, t.scount)) =
      some (.idle, [], 0#32) := by decide

/-- A stalled sink holds a SIL (R129). -/
theorem test_stall :
    after (step { inSil 5#7 with sReady := false }) (fun t => (t.k, t.received)) = some (5#7, []) := by
  decide

/-- SCOUNT wraps (vector H14). -/
theorem test_scount_wraps :
    after (step { inSil 5#7 with scount := 0xFFFFFFFF#32 }) (fun t => t.scount) = some 0#32 := by decide

/-- H7: the window is little-endian. -/
theorem test_buf_write :
    after (step { State.reset with agenda := [.write 0x200#10 0x11223344#32] }) (fun t => t.mem) =
      some [(0, 0x44#8), (1, 0x33#8), (2, 0x22#8), (3, 0x11#8)] := by decide

/-- H8: a BUF write while a command waits is refused; STATUS is `0x00010530`. -/
theorem test_buf_locked :
    after (step { State.reset with queue := [0x30000000#32], agenda := [.write 0x200#10 0#32] })
      (fun t => (t.status, t.mem)) = some (0x00010530#32, []) := by decide

/-- E23: the 17th command is refused; STATUS is `0x00100434`. -/
theorem test_queue_overflow :
    after (step { State.reset with
      queue := List.replicate 16 0x30000000#32, agenda := [.write 3#10 0x30000000#32] })
      (fun t => t.status) = some 0x00100434#32 := by decide

/-- H12: ERR with ERR_IE raises `irq` at once. -/
theorem test_irq :
    after (step { State.reset with ctrl := 8#4, agenda := [.write 3#10 0#32] })
      (fun t => (t.irq, t.errcode)) = some (true, 1#4) := by decide

/-- H6: CTRL keeps four bits. -/
theorem test_ctrl_write :
    after (step { State.reset with agenda := [.write 1#10 0xFFFFFFFF#32] })
      (fun t => t.readReg .ctrl) = some 0x0000000F#32 := by decide

/-- R1v: reset while a MOD runs. -/
theorem test_reset_turn :
    after (step { inMod 83#7 7#3 2#10 with scount := 5000#32, err := true, agenda := [.reset] })
      (fun t => (t.status, t.scount, t.queue, t.mem)) = some (0x00000002#32, 0#32, [], []) := by decide

/-- The table's commands run as the first after reset. -/
theorem test_withFetchWord :
    after (step (State.reset.withFetchWord 32 0x20000001)) (fun t => (t.op, t.tone)) =
      some (.bit, 1#1) := by decide

/-- `wait_empty` polls again while locked (R92). -/
theorem test_wait_empty :
    after (step { inSil 0#7 with agenda := [.waitEmpty] }) (fun t => (t.hbRdata, t.agenda)) =
      some (0x00000023#32, [.engine, .waitEmpty]) := by decide

/-- The assembler (R90, R91): a burst is a MOD and a SIL; an operand out of range is refused. -/
theorem test_assembler :
    assemble "BURST 0, 20 ; x" = some [.mod 0#9 20#10, .sil] ∧ assemble "ATTN 256" = none := by decide

/-- A host program (R92). -/
theorem test_hostProgram :
    hostProgram "wr BUF+64, 0xAB\ncmd ATTN 10\nrd STATUS -> 0x2\nwait_empty" =
      some [.write 0x210#10 0xAB#32, .write 3#10 0x4000000A#32, .read 2#10, .waitEmpty] := by decide

/-- The source's full transmission is 14 legal commands (R158). -/
theorem test_transmission :
    (transmission 0#9 57#10 64#9 10#8).length = 14 ∧
    (transmission 0#9 57#10 64#9 10#8).all Instr.wellFormed = true := by decide

/-- `SPB` = floor(44100 / 520.83) (R9), the stream's bit rate FS / SPB = 525 (R107). -/
theorem test_spb : fs * 100 / baudHundredths = 84 ∧ fs / 84 = 525 := by decide

/-! ### Witnesses: what meets the hypotheses of each statement -/

theorem witness_DecodeReadsBackEveryEncoding : (Instr.mod 255#9 257#10).wellFormed = true := by decide

theorem witness_DecodedWordIsItsEncoding : decode 0x11FF0001#32 = .ok (.mod 511#9 1#10) := by decide

/-- Each clause of the order of checks, at its boundary words. -/
theorem witness_DecodeAppliesItsChecksInOrder :
    decode 0x00000000#32 = .error .illegalOpcode ∧ decode 0x50000000#32 = .error .illegalOpcode ∧
    decode 0x12000000#32 = .error .reservedBits ∧ decode 0x20000002#32 = .error .reservedBits ∧
    decode 0x30000001#32 = .error .reservedBits ∧ decode 0x40000100#32 = .error .reservedBits ∧
    decode 0x10010200#32 = .error .bufRange ∧ legalWord 0x10000200#32 = true := by decide

/-- The boundaries of the list of legal words. -/
theorem witness_LegalWordsAreExactlyTheListedOnes :
    legalWord 0x11FF0000#32 = true ∧ legalWord 0x11FF0001#32 = true ∧ legalWord 0x11FF0002#32 = false ∧
    legalWord 0x10000200#32 = true ∧ legalWord 0x10000201#32 = false ∧
    legalWord 0x20000001#32 = true ∧ legalWord 0x30000000#32 = true ∧
    legalWord 0x40000000#32 = true ∧ legalWord 0x400000FF#32 = true ∧
    legalWord 0x40000100#32 = false := by decide

theorem witness_AssemblerRefusesRatherThanTruncates :
    (Asm.mod 511 1).expand = some [.mod 511#9 1#10] ∧ (Asm.mod 512 0).expand = none ∧
    (Asm.mod 0 513).expand = none ∧ (Asm.mod 511 2).expand = none ∧
    (Asm.attn 255).expand = some [.attn 255#8] ∧ (Asm.attn 256).expand = none ∧
    (Asm.bit 1).expand = some [.bit 1#1] ∧ (Asm.bit 2).expand = none := by decide

theorem witness_StepRunsTheDecodedCommand :
    (running []).op = .idle ∧ (running []).run = true ∧ (running []).err = false ∧
    decode 0x4000000A#32 = .ok (.attn 10#8) := by decide

/-- Both clauses of the MOD and of the ATTN dispatch are met. -/
theorem witness_ModDispatchStartsAtItsFirstByte :
    after (exec (.mod 511#9 0#10) State.reset) (fun t => t.op) = some .idle ∧
    after (exec (.mod 511#9 1#10) State.reset) (fun t => t.op) = some .mod := by decide

theorem witness_AttnDispatchLatchesItsMode :
    after (exec (.attn 0#8) State.reset) (fun t => t.op) = some .idle ∧
    after (exec (.attn 1#8) State.reset) (fun t => t.acnt) = some 44100#24 := by decide

theorem witness_DispatchFrame :
    exec .sil (running []) = .next { running [] with op := .sil, k := 0#7 } := rfl

/-- The four conditions hold in one state, and each fails in another. -/
theorem witness_DispatchIsEnabledExactlyWhenAllFourHold :
    (running [0x30000000#32]).canDispatch = true ∧ (running []).canDispatch = false ∧
    ({ running [0x30000000#32] with err := true } : State).canDispatch = false ∧
    ({ running [0x30000000#32] with ctrl := 0#4 } : State).canDispatch = false ∧
    ({ inSil 0#7 with queue := [0x30000000#32] } : State).canDispatch = false ∧
    legalWord 0x30000000#32 = true ∧ decode 0x30000000#32 = .ok .sil ∧
    after (step { running [0x30000000#32] with agenda := [.engine] }) (fun t => t.queue) = some [] := by
  decide

/-- Each of the four clauses of a MOD step: within a bit-tone, next bit, next byte, end. -/
theorem witness_ModStepAdvancesSampleBitAndByte :
    ∀ s ∈ [inMod 82#7 7#3 2#10, inMod 83#7 6#3 2#10, inMod 83#7 7#3 2#10, inMod 83#7 7#3 1#10],
      s.op = .mod ∧ s.sReady = true ∧ ((s.cfg.rom s.tone)[s.k.toNat]?).isSome = true ∧
      s.ptr.toNat + s.left.toNat ≤ 512 ∧ 1 ≤ s.left.toNat := by decide

theorem witness_BitStepEmitsOneToneSample :
    ∀ s ∈ [inBit 82#7, inBit 83#7],
      s.op = .bit ∧ s.sReady = true ∧ ((s.cfg.rom s.tone)[s.k.toNat]?).isSome = true := by decide

theorem witness_SilStepEmitsOneZeroSample :
    ∀ s ∈ [inSil 82#7, inSil 83#7], s.op = .sil ∧ s.sReady = true := by decide

theorem witness_AttnStepCountsOneIteration :
    ∀ s ∈ [inAttn 1#24 true, inAttn 2#24 true, inAttn 1#24 false, inAttn 2#24 false],
      s.op = .attn ∧ 1 ≤ s.acnt.toNat ∧ (s.azero = true → s.sReady = true) := by decide

theorem witness_EngineTurnFrame :
    (inSil 0#7).nextTurn = .engine ∧
    step (inSil 0#7) = .next { (inSil 0#7).emit silence with k := 1#7 } := ⟨rfl, rfl⟩

theorem witness_EngineWaitsForTheSink :
    let s := { inSil 5#7 with sReady := false }
    s.sValid = true ∧ s.sReady = false ∧ s.agenda = [] := by decide

theorem standard_wf : standardConfig.wf = true := by decide

theorem sil_legal : legalWord 0x30000000#32 = true := by decide

theorem bit_legal : legalWord 0x20000001#32 = true := by decide

/-- The invariant holds of a running MOD with a command waiting. -/
theorem inMod_inv : Inv { inMod 83#7 7#3 2#10 with queue := [0x30000000#32] } where
  tableWf := standard_wf
  memoryWf := by decide
  queueBound := by decide
  queueLegal := fun _ hc => List.mem_singleton.mp hc ▸ sil_legal
  errorCode := by decide
  engine := ⟨by decide, by decide, by decide, by decide, by decide⟩

theorem witness_TransferDeliversTheOfferedSample :
    let s := { inMod 83#7 7#3 2#10 with queue := [0x30000000#32] }
    Inv s ∧ s.sValid = true ∧ s.sReady = true := ⟨inMod_inv, by decide, by decide⟩

theorem witness_OfferIsHeldUntilTheTransfer :
    let s := { inSil 5#7 with agenda := [.write 1#10 0#32] }
    s.sValid = true ∧ step s = .next { inSil 5#7 with ctrl := 0#4 } ∧ s.nextTurn ≠ .reset ∧
    ¬ (s.nextTurn = .engine ∧ s.sReady = true) := ⟨rfl, rfl, by decide, by decide⟩

theorem witness_ModRunEmitsItsRange :
    State.reset.cfg.wf = true ∧ State.reset.sReady = true ∧ State.reset.agenda = [] ∧
    (511#9).toNat + (1#10).toNat ≤ 512 ∧ (511#9).toNat + (0#10).toNat ≤ 512 := by decide

/-- The invariant holds of an idle block with any agenda. -/
theorem running_inv (a : List Turn) : Inv { running [] with agenda := a } where
  tableWf := standard_wf
  memoryWf := rfl
  queueBound := Nat.zero_le _
  queueLegal := fun _ hc => absurd hc List.not_mem_nil
  errorCode := ⟨Nat.zero_le _, iff_of_true rfl rfl⟩
  engine := trivial

/-- RUN = 1 and an idle block whose host is about to queue `MOD 511, 1`. -/
theorem witness_ModSampleClosedForm :
    let s := { running [] with agenda := [.write 3#10 (encode (.mod 511#9 1#10))] }
    Inv s ∧ s.cfg.spb = .s84 ∧ s.sReady = true ∧ s.run = true ∧ s.err = false ∧ s.locked = false ∧
    (511#9).toNat + (1#10).toNat ≤ 512 ∧ s.agenda = [.write 3#10 (encode (.mod 511#9 1#10))] :=
  ⟨running_inv _, rfl, rfl, rfl, rfl, rfl, by decide, rfl⟩

theorem witness_BitRunEmitsOneBitTone :
    State.reset.cfg.wf = true ∧ State.reset.sReady = true ∧ State.reset.agenda = [] := by decide

theorem witness_SilRunEmitsOneSilenceUnit :
    State.reset.sReady = true ∧ State.reset.agenda = [] ∧ State.reset.cfg.spb = .s84 := by decide

/-- Both modes. -/
theorem witness_AttnRunIsSilentOrZeros :
    ∀ s ∈ [{ State.reset with sReady := false }, { State.reset with ctrl := 2#4 }],
      s.agenda = [] ∧ (s.attnZero = true → s.sReady = true) := by decide

theorem witness_QueueRunConcatenatesItsCommands :
    let s := running [0x20000001#32, 0x30000000#32]
    Inv s ∧ s.op = .idle ∧ s.run = true ∧ s.err = false ∧ s.sReady = true ∧ s.agenda = [] :=
  ⟨⟨standard_wf, rfl, by decide, by simp [running, bit_legal, sil_legal], by decide, trivial⟩,
    rfl, by decide, rfl, rfl, rfl⟩

theorem witness_EightBitsEqualAModOfTheByte :
    (running []).cfg.wf = true ∧ (running []).op = .idle ∧ (running []).run = true ∧
    (running []).err = false ∧ (running []).sReady = true ∧ (running []).agenda = [] := by decide

/-- Two states that differ in SCOUNT, DONE, an enable and the record, and one step of each. -/
theorem witness_SamplesDependOnlyOnQueueBufferModeAndTable :
    let s := running [0x30000000#32]
    let r := { running [0x30000000#32] with
      ctrl := 5#4, scount := 7#32, done := true, k := 9#7, hbRdata := 3#32 }
    s.op = .idle ∧ r.op = .idle ∧ s.run = true ∧ r.run = true ∧ s.err = false ∧ r.err = false ∧
    s.sReady = true ∧ r.sReady = true ∧ s.agenda = [] ∧ r.agenda = [] ∧ s.queue = r.queue ∧
    (∀ a, a < 512 → s.bufByte a = r.bufByte a) ∧ s.attnZero = r.attnZero ∧ s.cfg = r.cfg ∧
    runSteps 1 s = .next { s with queue := [], op := .sil, k := 0#7 } ∧
    runSteps 1 r = .next { r with queue := [], op := .sil, k := 0#7 } :=
  ⟨rfl, rfl, rfl, rfl, rfl, rfl, rfl, rfl, rfl, rfl, rfl, fun _ _ => rfl, rfl, rfl, rfl, rfl⟩

theorem witness_EveryStepKeepsInv :
    let s := { inMod 83#7 7#3 2#10 with queue := [0x30000000#32] }
    Inv s ∧ after (step s) (fun t => t.ptr) = some 1#10 := ⟨inMod_inv, by decide⟩

theorem witness_InvStatesNeverStop : Inv { inMod 83#7 7#3 2#10 with queue := [0x30000000#32] } :=
  inMod_inv

/-- A locked buffer and a BUF write; an unlocked one and a read at the window's last word. -/
theorem witness_TableIsFixedAndBufferChangesOnlyByHostOrReset :
    let s := { inSil 5#7 with agenda := [.write 0x27F#10 7#32] }
    let r := { running [] with agenda := [.write 4#10 7#32] }
    step s = .next { inSil 5#7 with err := true, errcode := 5#4 } ∧ s.locked = true ∧
    s.nextTurn ≠ .reset ∧ step r = .next (running []) ∧ r.nextTurn = .write 4#10 7#32 ∧
    (4#10).toNat / 128 ≠ 4 ∧ (0x27F#10).toNat / 128 = 4 ∧ (0x280#10).toNat / 128 ≠ 4 ∧
    (0x1FF#10).toNat / 128 ≠ 4 := ⟨rfl, by decide, by decide, rfl, rfl, by decide⟩

theorem witness_ScountCountsTheTransferredSamples :
    step (inSil 0#7) = .next { (inSil 0#7).emit silence with k := 1#7 } ∧
    step { inSil 0#7 with scount := 9#32, agenda := [.write 4#10 1#32] } = .next (inSil 0#7) ∧
    step (inAttn 2#24 false) = .next (inAttn 1#24 false) := ⟨rfl, rfl, rfl⟩

theorem witness_EverySampleIsATableEntryOrZero :
    step (inSil 0#7) = .next { (inSil 0#7).emit silence with k := 1#7 } := rfl

theorem witness_OnlyARunningCommandEmits :
    step (inSil 0#7) = .next { (inSil 0#7).emit silence with k := 1#7 } ∧
    ({ (inSil 0#7).emit silence with k := 1#7 } : State).stream ≠ (inSil 0#7).stream ∧
    State.reset.op = .idle := ⟨rfl, by decide, rfl⟩

theorem witness_AttentionModeIsLatchedAtDispatch :
    after (exec (.attn 1#8) { running [] with ctrl := 3#4 }) (fun t => t.azero) = some true ∧
    after (step { inAttn 5#24 true with agenda := [.write 1#10 0#32] }) (fun t => (t.op, t.azero)) =
      some (.attn, true) ∧
    after (step { inAttn 5#24 true with agenda := [.reset] }) (fun t => t.azero) = some false := by
  decide

theorem witness_DoneIsSetByTheLastCompletion :
    after (step (inSil 83#7)) (fun t => (t.done, t.op)) = some (true, .idle) ∧
    (inSil 83#7).done = false ∧
    after (step { State.reset with done := true, agenda := [.write 2#10 8#32] }) (fun t => t.done) =
      some false := by decide

theorem witness_RunningCommandIgnoresRunAndErr :
    (inSil 5#7).op ≠ .idle ∧ (inSil 5#7).nextTurn = .engine ∧
    step (inSil 5#7) = .next { (inSil 5#7).emit silence with k := 6#7 } :=
  ⟨by decide, rfl, rfl⟩

theorem witness_HostAndSinkLeaveTheEngineAlone :
    let s := { inSil 5#7 with agenda := [.write 3#10 0x20000000#32] }
    step s = .next { inSil 5#7 with queue := [0x20000000#32] } ∧ s.nextTurn ≠ .engine ∧
    s.nextTurn ≠ .reset := ⟨rfl, by decide, by decide⟩

theorem witness_OnlyRefusedAccessesLatchErrors :
    step { State.reset with agenda := [.write 3#10 0#32] } =
      .next { State.reset with err := true, errcode := 1#4 } ∧ State.reset.err = false := ⟨rfl, rfl⟩

/-- Each way to be refused, and a later step that keeps the code. -/
theorem witness_FirstErrorWins :
    decode 0#32 = .error .illegalOpcode ∧ legalWord 0x30000000#32 = true ∧
    (List.replicate 16 0x30000000#32).length = 16 ∧
    (0x200#10).toNat / 128 = 4 ∧ (0x27F#10).toNat / 128 = 4 ∧ (inSil 0#7).locked = true ∧
    after (step { State.reset with
      err := true, errcode := 1#4, agenda := [.write 3#10 0x20000002#32] }) (fun t => t.errcode) =
        some 1#4 := by decide

/-- One state per clause: unlocked; idle with RUN = 0, a word queued, and a CTRL write that leaves RUN 0. -/
theorem witness_EngineStaysIdleUntilTheHostActs :
    let s := { State.reset with queue := [0x10000000#32], agenda := [.write 1#10 0xFFFFFFFE#32, .engine] }
    runSteps 1 State.reset = .next State.reset ∧ State.reset.locked = false ∧
    (∀ c, Turn.write 3#10 c ∉ State.reset.agenda) ∧
    runSteps 2 s = .next { State.reset with ctrl := 14#4, queue := [0x10000000#32] } ∧
    s.op = .idle ∧ s.run = false ∧ Turn.reset ∉ s.agenda ∧
    (∀ d, Turn.write 1#10 d ∈ s.agenda → d.getLsbD 0 = false) :=
  ⟨rfl, by decide, by simp [State.reset], rfl, rfl, by decide, by decide, by simp⟩

/-- Quiescent, woken by each of the three writes; ended with an error latched and a reset to come. -/
theorem witness_QuiescentUntilAHostWrite :
    let sil := 0x30000000#32
    let s := { running [] with agenda := [.write 3#10 sil] }
    let r := { State.reset with queue := [sil], agenda := [.write 1#10 1#32] }
    let e := { running [sil] with err := true, errcode := 1#4, agenda := [.write 2#10 0x10#32] }
    let z := { running [] with err := true, errcode := 1#4, agenda := [.sink false, .reset] }
    (∀ x ∈ [s, r, e], x.quiescent = true ∧ after (step x) (fun t => t.quiescent) = some false) ∧
    z.ended = true ∧ z.endedNormally = false ∧ z.nextTurn ≠ .reset ∧
    after (step z) (fun t => (t.ended, t.endedNormally)) = some (true, false) := by decide

/-- The end of a run is its first ended state (R157): the reset that follows an error is not a part of it. -/
theorem test_runEnds :
    let z := { State.reset with agenda := [.write 3#10 0#32, .reset] }
    let t := { State.reset with err := true, errcode := 1#4, agenda := [.reset] }
    RunEnds z 1 t ∧ ¬ RunEndsNormally z 1 t ∧ runSamples z t = [] :=
  ⟨⟨rfl, by decide, fun m u hm h => by
      obtain rfl : m = 0 := by omega
      cases h; decide⟩, fun h => absurd h.2 (by decide), rfl⟩

/-- The boundaries of the register map's ranges. -/
theorem witness_HostReadsReturnTheRegisterMap :
    Reg.ofAddr 5#10 = .param ∧ Reg.ofAddr 6#10 = .unmapped ∧ Reg.ofAddr 511#10 = .unmapped ∧
    Reg.ofAddr 512#10 = .buf 0#7 ∧ Reg.ofAddr 639#10 = .buf 127#7 ∧
    Reg.ofAddr 640#10 = .unmapped ∧ Reg.ofAddr 1023#10 = .unmapped := by decide

theorem witness_StatusWordIsTheSumOfItsFields :
    (running (List.replicate 16 0x30000000#32)).queue.length ≤ 16 ∧ (running []).queue.length ≤ 16 := by
  decide

theorem witness_BusyBitShowsARunningCommand :
    (inAttn 5#24 false).op = .attn ∧ (inAttn 5#24 false).azero = false := by decide

theorem witness_QueueBitsShowTheWaitingCommands :
    (running (List.replicate 16 0x30000000#32)).queue.length ≤ 16 := by decide

theorem witness_ParamReportsTheParameters : State.reset.cfg.spb = .s84 := rfl

theorem witness_LegalCmdWriteIsQueued :
    legalWord 0x30000000#32 = true ∧ (List.replicate 15 0x30000000#32).length ≠ 16 := by decide

/-- The first and the last word, unlocked and locked. -/
theorem witness_BufWordWritesItsFourBytes :
    0 < 128 ∧ 127 < 128 ∧ State.reset.locked = false ∧ (inSil 0#7).locked = true ∧
    Reg.ofAddr (BitVec.ofNat 10 (512 + 127)) = .buf 127#7 := by decide

theorem witness_LockedBufferRefusesWritesAndAllowsReads :
    127 < 128 ∧ (inSil 0#7).locked = true ∧ (running [0x30000000#32]).locked = true := by decide

theorem witness_IgnoredWritesChangeNothing :
    (0#10).toNat = 0 ∧ (5 ≤ (511#10).toNat ∧ (511#10).toNat < 512) ∧ 640 ≤ (640#10).toNat ∧
    (let s := { State.reset with agenda := [.write 3#10 0x30000000#32] }
     s.nextTurn = .write 3#10 0x30000000#32 ∧
     step s = .next { State.reset with queue := [0x30000000#32] } ∧
     ({ State.reset with queue := [0x30000000#32] } : State).queue ≠ s.queue) :=
  ⟨by decide, by decide, by decide, rfl, rfl, by decide⟩

end Sys2Proof.Machine.Tests
end

section
/-! PROOF. The registers and records of 10_state.md: what a host access answers, the STATUS, PARAM and BUF
words as numbers, and what a step may do to SCOUNT and to the attention mode that an ATTN latched. -/

namespace Sys2Proof.Machine

/-! ### A host access that is the next turn -/

/-- A host read answers the register's value in `hb_rdata` and changes nothing else (R20, R170). -/
theorem step_read (s : State) (rest : List Turn) (a : BitVec 10) :
    step { s with agenda := .read a :: rest } =
      .next { s with agenda := rest, hbRdata := s.readReg (Reg.ofAddr a) } :=
  step_of_agenda _ (.read a) rest rfl

/-- A host write is the write of the register at its address (R171 to R176). -/
theorem step_write (s : State) (rest : List Turn) (a : BitVec 10) (d : Word) :
    step { s with agenda := .write a d :: rest } =
      .next (writeReg d { s with agenda := rest } (Reg.ofAddr a)) :=
  step_of_agenda _ (.write a d) rest rfl

/-! ### Words as numbers -/

/-- The upper part of a concatenation counts in multiples of the lower part's range. -/
theorem toNat_append_eq_add {m n : Nat} (x : BitVec m) (y : BitVec n) :
    (x ++ y).toNat = x.toNat * 2 ^ n + y.toNat := by
  rw [BitVec.toNat_append, ← Nat.shiftLeft_add_eq_or_of_lt y.isLt, Nat.shiftLeft_eq]

/-- The STATUS word as the sum of its fields, QCOUNT as its five bits hold it (R28). -/
theorem State.status_toNat (s : State) :
    s.status.toNat =
      s.busy.toNat + 2 * s.qempty.toNat + 4 * s.qfull.toNat + 8 * s.done.toNat + 16 * s.err.toNat +
        32 * s.locked.toNat + 2 ^ 8 * s.errcode.toNat + 2 ^ 16 * (s.queue.length % 2 ^ 5) := by
  simp only [State.status, toNat_append_eq_add, BitVec.toNat_ofBool, BitVec.toNat_ofNat]
  omega

/-- STATUS.QCOUNT, bits [20:16] (R30). -/
theorem State.status_qcount (s : State) :
    s.status.toNat / 2 ^ 16 % 2 ^ 5 = s.queue.length % 2 ^ 5 := by
  have herr := s.errcode.isLt
  have hbusy := s.busy.toNat_lt
  have hqempty := s.qempty.toNat_lt
  have hqfull := s.qfull.toNat_lt
  have hdone := s.done.toNat_lt
  have herrBit := s.err.toNat_lt
  have hlocked := s.locked.toNat_lt
  rw [s.status_toNat]
  omega

/-- The PARAM word as the sum of its fields (R35). -/
theorem State.paramWord_toNat (s : State) :
    s.paramWord.toNat = 512 * 2 ^ 16 + 16 * 2 ^ 8 + s.cfg.spb.toNat := by
  have := s.cfg.spb.toNat_bounds
  simp only [State.paramWord, toNat_append_eq_add, BitVec.toNat_ofNat, bufBytes, cmdqDepth]
  omega

/-- A BUF word as the sum of its bytes, the lowest address least significant (R36, R62). -/
theorem State.bufWord_toNat (s : State) (j : BitVec 7) :
    (s.bufWord j).toNat =
      (s.bufByte (4 * j.toNat)).toNat + (s.bufByte (4 * j.toNat + 1)).toNat * 2 ^ 8 +
        (s.bufByte (4 * j.toNat + 2)).toNat * 2 ^ 16 + (s.bufByte (4 * j.toNat + 3)).toNat * 2 ^ 24 := by
  simp only [State.bufWord, toNat_append_eq_add, bufWordAddr, Nat.add_zero]
  omega

/-- Byte `n` of a word is its digit `n` in base 256. -/
theorem wordByte_toNat (w : Word) (n : Nat) : (wordByte w n).toNat = w.toNat / 2 ^ (8 * n) % 2 ^ 8 := by
  rw [wordByte, BitVec.extractLsb'_toNat, Nat.shiftRight_eq_div_pow]

/-- The word just stored reads back (R36). -/
theorem storeWord_bufWord_same (j : BitVec 7) (d : Word) (s : State) :
    (storeWord j d s).bufWord j = d := by
  have hd := d.isLt
  have hbyte (n : Nat) (hn : n < 4) := storeWord_bufByte_same j d s n hn
  apply BitVec.eq_of_toNat_eq
  simp only [State.bufWord, hbyte, toNat_append_eq_add, wordByte_toNat, Nat.reduceLT]
  omega

/-! ### Status, queue, parameters and interrupt -/

/-- BUSY is 1 exactly when a command runs (R29). -/
theorem State.busy_iff (s : State) : s.busy = true ↔ s.op ≠ .idle := decide_eq_true_iff

/-- Settles O47: the read answers STATUS, whose bit 0 is BUSY. -/
theorem busyBitShowsARunningCommand : Obligations.BusyBitShowsARunningCommand := by
  intro s rest
  have hbusy : s.status.getLsbD 0 = true ↔ s.op ≠ .idle := by rw [s.status_busy, s.busy_iff]
  refine ⟨s.status, step_read s rest 2#10, hbusy, fun hop _ => hbusy.2 ?_⟩
  rw [hop]
  exact Op.noConfusion

/-- Settles O48: within its bound the length fits QCOUNT, and bits 1 and 2 test the same length. -/
theorem queueBitsShowTheWaitingCommands : Obligations.QueueBitsShowTheWaitingCommands := by
  intro s hbound
  have hcount : s.status.toNat / 2 ^ 16 % 2 ^ 5 = s.queue.length := by
    rw [s.status_qcount]
    omega
  rw [hcount, s.status_qempty, s.status_qfull]
  exact ⟨rfl, decide_eq_true_iff, decide_eq_true_iff⟩

/-- Settles O49: the read answers `paramWord`, whose fields are read off its number. -/
theorem paramReportsTheParameters : Obligations.ParamReportsTheParameters := by
  intro s rest d
  have hword := s.paramWord_toNat
  have hspb := s.cfg.spb.toNat_bounds
  refine ⟨s.paramWord, step_read s rest 5#10, by omega, by omega, by omega, fun h84 => ?_,
    step_write s rest 5#10 d⟩
  apply BitVec.eq_of_toNat_eq
  rw [hword, h84]
  rfl

/-- Settles O57: STATUS bits 3 and 4 are DONE and ERR, CTRL bits 2 and 3 their enables. -/
theorem irqFollowsItsEnabledFlags : Obligations.IrqFollowsItsEnabledFlags := by
  refine ⟨fun s => ?_, rfl⟩
  rw [s.status_done, s.status_err]
  rfl

/-! ### The BUF window -/

/-- The address of BUF word `j` (R25). -/
theorem Reg.ofAddr_bufWindow (j : Nat) (hj : j < 128) :
    Reg.ofAddr (BitVec.ofNat 10 (512 + j)) = .buf (BitVec.ofNat 7 j) := by
  have ha : (BitVec.ofNat 10 (512 + j)).toNat = 512 + j := by
    rw [BitVec.toNat_ofNat]
    omega
  rw [Reg.ofAddr_buf _ (by omega), ha, Nat.add_sub_cancel_left]

/-- An unlocked BUF write stores its word (R36, R175). -/
theorem step_bufWrite_of_unlocked (s : State) (rest : List Turn) (a : BitVec 10) (j : BitVec 7) (d : Word)
    (ha : Reg.ofAddr a = .buf j) (hunlocked : s.locked = false) :
    step { s with agenda := .write a d :: rest } = .next (storeWord j d { s with agenda := rest }) := by
  simp only [step_write, ha, writeReg, writeBuf, State.agenda_locked, hunlocked, Bool.false_eq_true,
    if_false]

/-- A locked BUF write only raises its error (R66, R175). -/
theorem step_bufWrite_of_locked (s : State) (rest : List Turn) (a : BitVec 10) (j : BitVec 7) (d : Word)
    (ha : Reg.ofAddr a = .buf j) (hlocked : s.locked = true) :
    step { s with agenda := .write a d :: rest } = .next ({ s with agenda := rest }.raise .bufLocked) := by
  simp only [step_write, ha, writeReg, writeBuf, State.agenda_locked, hlocked, if_true]

/-- A BUF read answers the window's word (R36, R170). -/
theorem step_bufRead (s : State) (rest : List Turn) (a : BitVec 10) (j : BitVec 7)
    (ha : Reg.ofAddr a = .buf j) :
    step { s with agenda := .read a :: rest } =
      .next { s with agenda := rest, hbRdata := s.bufWord j } := by
  rw [step_read, ha, State.readReg]

/-- Settles O54: an unlocked write is `storeWord`, a locked one only raises its error, and the read
answers `bufWord`, after the write the stored word. -/
theorem bufWordWritesItsFourBytes : Obligations.BufWordWritesItsFourBytes := by
  intro s rest j d hj a
  have ha : Reg.ofAddr a = .buf (BitVec.ofNat 7 j) := Reg.ofAddr_bufWindow j hj
  have hword : (BitVec.ofNat 7 j).toNat = j := by
    rw [BitVec.toNat_ofNat]
    omega
  refine ⟨fun hunlocked => ?_, fun hlocked => ?_, s.bufWord (BitVec.ofNat 7 j),
    step_bufRead s rest a _ ha, ?_⟩
  · refine ⟨storeWord (BitVec.ofNat 7 j) d { s with agenda := rest },
      step_bufWrite_of_unlocked s rest a _ d ha hunlocked, storeWord_eq _ _ _, fun n hn => ?_,
      fun b hb => storeWord_bufByte_other _ _ _ _ (by rwa [hword]), ?_⟩
    · have hbyte := storeWord_bufByte_same (BitVec.ofNat 7 j) d { s with agenda := rest } n hn
      rw [bufWordAddr, hword] at hbyte
      rw [hbyte, wordByte_toNat]
    · rw [step_bufRead _ rest a _ ha, storeWord_bufWord_same]
      rfl
  · exact ⟨_, step_bufWrite_of_locked s rest a _ d ha hlocked, State.raise_bufByte _ _⟩
  · rw [s.bufWord_toNat, hword]

/-! ### SCOUNT and the stream -/

/-- How a step may move the stream and SCOUNT other than by clearing SCOUNT: neither moves, or one sample
that `s` offered to an accepting sink is counted (R34, R129). -/
inductive CountedTransfer (s t : State) : Prop
  | none (hstream : t.stream = s.stream) (hcount : t.scount = s.scount)
  | one (v : Word) (hvalid : s.sValid = true) (hready : s.sReady = true)
      (hstream : t.stream = s.stream ++ [v]) (hcount : t.scount = s.scount + 1#32)

/-- An offer comes from a running command; an ATTN makes one only in mode 1 (R22, R130). -/
theorem State.sValid_iff (s : State) :
    s.sValid = true ↔ s.op = .mod ∨ s.op = .bit ∨ s.op = .sil ∨ (s.op = .attn ∧ s.azero = true) := by
  cases hop : s.op <;> simp [State.sValid, hop]

/-- A state that differs from `s.emit v` in neither the record of samples nor SCOUNT. -/
theorem CountedTransfer.of_emit {s t : State} (v : Word) (hvalid : s.sValid = true)
    (hready : s.sReady = true) (hreceived : t.received = v :: s.received)
    (hcount : t.scount = s.scount + 1#32) : CountedTransfer s t :=
  .one v hvalid hready (by simp [State.stream, hreceived]) hcount

/-- Every engine turn that transfers a sample counts it, and no other moves SCOUNT (R34, R129). -/
theorem EngineEffect.countedTransfer {s t : State} (h : EngineEffect s t) : CountedTransfer s t := by
  cases h with
  | rest | wait | emptyCommand | dispatchMod | dispatchBit | dispatchSil | dispatchAttn
  | attnSilent | attnSilentEnd => exact .none rfl rfl
  | unitSample w hr _ hw | unitEnd w hr _ hw => exact .of_emit w (s.sValid_iff.2 (by tauto)) hr rfl rfl
  | modNextBit w hop hr | modNextByte w hop hr | modEnd w hop hr =>
    exact .of_emit w (s.sValid_iff.2 (.inl hop)) hr rfl rfl
  | attnZero hop hz hr | attnZeroEnd hop hz hr =>
    exact .of_emit silence (s.sValid_iff.2 (.inr (.inr (.inr ⟨hop, hz⟩)))) hr rfl rfl

/-- Every turn but reset and the SCOUNT write counts exactly what it transfers (R34). -/
theorem TurnEffect.countedTransfer {s t : State} {u : Turn} (h : TurnEffect s u t)
    (hreset : u ≠ .reset) (hwrite : ∀ d, u ≠ .write 4#10 d) : CountedTransfer s t := by
  cases h with
  | engine h => exact h.countedTransfer
  | writeScount d => exact absurd rfl (hwrite d)
  | reset => exact absurd rfl hreset
  | refusedCmd | refusedBuf | stored => exact .none (by simp [State.stream]) (by simp)
  | read | writeIgnored | writeCtrl | writeStatus | queued | polled | pollAgain | sink =>
    exact .none rfl rfl

/-- The same for a step: that its turn has left the agenda is seen in neither the stream nor SCOUNT. -/
theorem step_countedTransfer (s t : State) (hstep : step s = .next t) (hreset : s.nextTurn ≠ .reset)
    (hwrite : ∀ d, s.nextTurn ≠ .write 4#10 d) : CountedTransfer s t := by
  cases (step_effect s t hstep).countedTransfer hreset hwrite with
  | none hstream hcount => exact .none hstream hcount
  | one v hvalid hready hstream hcount => exact .one v hvalid hready hstream hcount

/-- A SCOUNT write clears SCOUNT, whatever the data; so does reset (R34, R48, R174). -/
theorem TurnEffect.scount_cleared {s t : State} {u : Turn} (h : TurnEffect s u t)
    (hclear : u = .reset ∨ ∃ d, u = .write 4#10 d) : t.scount = 0#32 := by
  obtain rfl | ⟨d, rfl⟩ := hclear
  · cases h; rfl
  · cases h with
    | writeScount => rfl
    | writeIgnored _ _ ha | stored _ _ _ ha | refusedBuf _ _ _ ha =>
      simp only [BitVec.toNat_ofNat] at ha
      omega

/-- The count of a transfer in numbers: SCOUNT rises mod 2^32 by what the stream grew by, and a silent
ATTN has none to count. -/
theorem CountedTransfer.scount_toNat {s t : State} (h : CountedTransfer s t) :
    t.scount.toNat = (s.scount.toNat + (t.stream.length - s.stream.length)) % 2 ^ 32 ∧
    t.stream.length ≤ s.stream.length + 1 ∧
    (s.op = .attn → s.azero = false → t.stream = s.stream ∧ t.scount = s.scount) := by
  cases h with
  | none hstream hcount =>
    have := s.scount.isLt
    rw [hstream, hcount]
    exact ⟨by omega, by omega, fun _ _ => ⟨rfl, rfl⟩⟩
  | one v hvalid _ hstream hcount =>
    rw [hstream, hcount, List.length_append, List.length_singleton, BitVec.toNat_add]
    refine ⟨by simp, le_rfl, fun hop hz => ?_⟩
    simp [State.sValid, hop, hz] at hvalid

/-- Settles O34: a split over what the next turn can do. -/
theorem scountCountsTheTransferredSamples : Obligations.ScountCountsTheTransferredSamples := by
  intro s t hstep
  exact ⟨(step_effect s t hstep).scount_cleared, fun hreset hwrite =>
    (step_countedTransfer s t hstep hreset hwrite).scount_toNat⟩

/-! ### The attention mode -/

/-- No engine turn of a running ATTN changes its mode: only a dispatch latches one, and a dispatch needs
an idle engine (R44, R151). -/
theorem EngineEffect.azero_of_attn {s t : State} (h : EngineEffect s t) (hop : s.op = .attn) :
    t.azero = s.azero := by
  cases h with
  | dispatchAttn hcan =>
    obtain ⟨hidle, -⟩ := s.canDispatch_iff.1 hcan
    rw [hop] at hidle
    cases hidle
  | rest | wait | emptyCommand | dispatchMod | dispatchBit | dispatchSil | unitSample | unitEnd
  | modNextBit | modNextByte | modEnd | attnSilent | attnSilentEnd | attnZero | attnZeroEnd => rfl

/-- No turn but reset changes the mode of a running ATTN (R44). -/
theorem TurnEffect.azero_of_attn {s t : State} {u : Turn} (h : TurnEffect s u t) (hop : s.op = .attn)
    (hreset : u ≠ .reset) : t.azero = s.azero := by
  cases h with
  | engine h => exact h.azero_of_attn hop
  | reset => exact absurd rfl hreset
  | refusedCmd | refusedBuf | stored => simp
  | read | writeIgnored | writeCtrl | writeStatus | writeScount | queued | polled | pollAgain | sink =>
    rfl

/-- Settles O37: the dispatch latches, and a split over what the next turn can do for the rest. -/
theorem attentionModeIsLatchedAtDispatch : Obligations.AttentionModeIsLatchedAtDispatch := by
  refine ⟨fun s t d hd hexec => ?_, fun s t hop hstep hreset => ?_, fun s t hstep hreset => ?_, rfl⟩
  · obtain ⟨hzero, -⟩ | ⟨-, hnext⟩ := execAttn_cases d s
    · exact absurd hzero hd
    · rw [exec, hnext] at hexec
      cases hexec
      exact ⟨rfl, rfl⟩
  · exact (step_effect s t hstep).azero_of_attn hop hreset
  · have heffect := step_effect s t hstep
    rw [hreset] at heffect
    cases heffect
    rfl

end Sys2Proof.Machine
end

section
/-! PROOF. The lock of the frame buffer (20_memory.md R66): when it holds, and what the host's accesses of the
BUF window do meanwhile. -/

namespace Sys2Proof.Machine

/-- The buffer is locked while a command runs or waits (R66). -/
theorem State.locked_iff (s : State) : s.locked = true ↔ s.busy = true ∨ 0 < s.queue.length := by
  simp [State.locked, State.qempty, List.length_pos_iff]

/-- Byte `n` of a BUF word is the buffer's byte at its address (R36, R62). -/
theorem State.wordByte_bufWord (s : State) (j : BitVec 7) (n : Nat) (hn : n < 4) :
    wordByte (s.bufWord j) n = s.bufByte (bufWordAddr j n) := by
  apply BitVec.eq_of_toNat_eq
  rw [wordByte_toNat, s.bufWord_toNat, bufWordAddr]
  interval_cases n
  · simp only [Nat.add_zero]
    omega
  all_goals omega

/-- Settles O55: STATUS bits 0 and 5 are BUSY and the lock, a locked write only raises its error, and the
bytes of the word that the read answers are the buffer's. -/
theorem lockedBufferRefusesWritesAndAllowsReads : Obligations.LockedBufferRefusesWritesAndAllowsReads := by
  intro s rest j d hj a
  have ha : Reg.ofAddr a = .buf (BitVec.ofNat 7 j) := Reg.ofAddr_bufWindow j hj
  have hword : (BitVec.ofNat 7 j).toNat = j := Nat.mod_eq_of_lt hj
  have hlock : s.locked = true ↔ s.status.getLsbD 0 = true ∨ 0 < s.queue.length := by
    rw [s.status_busy, s.locked_iff]
  refine ⟨hlock, s.status_locked, fun hlocked => ⟨?_, s.bufWord (BitVec.ofNat 7 j),
    step_bufRead s rest a _ ha, fun n hn => ?_⟩⟩
  · exact step_bufWrite_of_locked s rest a _ d ha hlocked
  · rw [← wordByte_toNat, s.wordByte_bufWord _ n hn, bufWordAddr, hword]

end Sys2Proof.Machine
end

section
/-! PROOF. The decoder's checks in their order (30_encoding.md R87): what each one asks of the word's number,
and the one outcome that they leave. -/

namespace Sys2Proof

/-- The first check passes: the opcode is one of the table's (R86, R87). -/
def LegalOpcode (c : Word) : Prop :=
  c.toNat / 2 ^ 28 = 1 ∨ c.toNat / 2 ^ 28 = 2 ∨ c.toNat / 2 ^ 28 = 3 ∨ c.toNat / 2 ^ 28 = 4

/-- The second check fails: a reserved bit of the opcode's format is set (R81 to R84, R87). -/
def ReservedBitSet (c : Word) : Prop :=
  (c.toNat / 2 ^ 28 = 1 ∧ (c.toNat / 2 ^ 25 % 8 ≠ 0 ∨ c.toNat / 2 ^ 10 % 64 ≠ 0)) ∨
  (c.toNat / 2 ^ 28 = 2 ∧ c.toNat / 2 % 2 ^ 27 ≠ 0) ∨
  (c.toNat / 2 ^ 28 = 3 ∧ c.toNat % 2 ^ 28 ≠ 0) ∨
  (c.toNat / 2 ^ 28 = 4 ∧ c.toNat / 2 ^ 8 % 2 ^ 20 ≠ 0)

/-- The third check fails: the range of a MOD ends outside the buffer (R87). -/
def RangeOutside (c : Word) : Prop :=
  c.toNat / 2 ^ 28 = 1 ∧ c.toNat / 2 ^ 16 % 2 ^ 9 + c.toNat % 2 ^ 10 > 512

/-- The result of the checks, each reached only when those before it pass (R87). -/
inductive CheckOutcome (c : Word) : Except CmdError Instr → Prop
  | illegalOpcode (hop : ¬ LegalOpcode c) : CheckOutcome c (.error .illegalOpcode)
  | reservedBits (hop : LegalOpcode c) (hres : ReservedBitSet c) : CheckOutcome c (.error .reservedBits)
  | bufRange (hop : LegalOpcode c) (hres : ¬ ReservedBitSet c) (hout : RangeOutside c) :
      CheckOutcome c (.error .bufRange)
  | ok (i : Instr) (hop : LegalOpcode c) (hres : ¬ ReservedBitSet c) (hout : ¬ RangeOutside c) :
      CheckOutcome c (.ok i)

/-- A field has a bit set exactly when its number is not 0. -/
theorem field_ne_zero_iff (c : Word) (lo n : Nat) :
    c.extractLsb' lo n ≠ 0#n ↔ c.toNat / 2 ^ lo % 2 ^ n ≠ 0 := by
  rw [ne_eq, field_eq_iff, BitVec.toNat_ofNat, Nat.zero_mod]

/-- A format with one reserved field and no range: its decoder is that field's check. -/
theorem CheckOutcome.of_reservedField {c : Word} (lo n : Nat) (i : Instr) (hop : LegalOpcode c)
    (hmod : c.toNat / 2 ^ 28 ≠ 1) (hfield : ReservedBitSet c ↔ c.toNat / 2 ^ lo % 2 ^ n ≠ 0) :
    CheckOutcome c (if c.extractLsb' lo n ≠ 0#n then .error .reservedBits else .ok i) := by
  have hres : c.extractLsb' lo n ≠ 0#n ↔ ReservedBitSet c := (field_ne_zero_iff c lo n).trans hfield.symm
  split_ifs with hset
  · exact .reservedBits hop (hres.1 hset)
  · exact .ok i hop (mt hres.2 hset) fun hout => hmod hout.1

/-- Format M has two reserved fields, and the range check after them (R81). -/
theorem decodeMod_checkOutcome (c : Word) (h : c.toNat / 2 ^ 28 = 1) : CheckOutcome c (decodeMod c) := by
  have hop : LegalOpcode c := .inl h
  have hres : c.extractLsb' 25 3 ≠ 0#3 ∨ c.extractLsb' 10 6 ≠ 0#6 ↔ ReservedBitSet c := by
    rw [field_ne_zero_iff, field_ne_zero_iff, ReservedBitSet, h]
    simp
  have hrange : rangeInBuffer (c.extractLsb' 16 9) (c.extractLsb' 0 10) = true ↔ ¬ RangeOutside c := by
    rw [rangeInBuffer, decide_eq_true_iff, field_toNat, field_toNat, RangeOutside, h]
    simp [bufBytes]
  unfold decodeMod
  split_ifs with hset hin
  · exact .reservedBits hop (hres.1 hset)
  · exact .ok _ hop (mt hres.2 hset) (hrange.1 hin)
  · exact .bufRange hop (mt hres.2 hset) (not_not.1 (mt hrange.2 hin))

/-- Format B reserves bits [27:1] (R82). -/
theorem decodeBit_checkOutcome (c : Word) (h : c.toNat / 2 ^ 28 = 2) : CheckOutcome c (decodeBit c) :=
  .of_reservedField 1 27 _ (.inr (.inl h)) (by omega) (by rw [ReservedBitSet, h]; simp)

/-- Format S reserves bits [27:0] (R83). -/
theorem decodeSil_checkOutcome (c : Word) (h : c.toNat / 2 ^ 28 = 3) : CheckOutcome c (decodeSil c) :=
  .of_reservedField 0 28 _ (.inr (.inr (.inl h))) (by omega) (by rw [ReservedBitSet, h]; simp)

/-- Format A reserves bits [27:8] (R84). -/
theorem decodeAttn_checkOutcome (c : Word) (h : c.toNat / 2 ^ 28 = 4) : CheckOutcome c (decodeAttn c) :=
  .of_reservedField 8 20 _ (.inr (.inr (.inr h))) (by omega) (by rw [ReservedBitSet, h]; simp)

/-- The decoder is the checks in their order: the opcode selects the format, whose decoder makes the
rest (R87). -/
theorem decode_checkOutcome (c : Word) : CheckOutcome c (decode c) := by
  unfold decode
  split_ifs with h1 h2 h3 h4
  · exact decodeMod_checkOutcome c ((opcodeOf_eq_iff c 1#4).1 h1)
  · exact decodeBit_checkOutcome c ((opcodeOf_eq_iff c 2#4).1 h2)
  · exact decodeSil_checkOutcome c ((opcodeOf_eq_iff c 3#4).1 h3)
  · exact decodeAttn_checkOutcome c ((opcodeOf_eq_iff c 4#4).1 h4)
  · rw [opcodeOf_eq_iff] at h1 h2 h3 h4
    exact .illegalOpcode fun hop => hop.elim h1 (·.elim h2 (·.elim h3 h4))

/-- The outcomes exclude each other, so each one tells which checks passed. -/
theorem CheckOutcome.eq_iff_checks {c : Word} {r : Except CmdError Instr} (h : CheckOutcome c r) :
    (r = .error .illegalOpcode ↔ ¬ LegalOpcode c) ∧
    (r = .error .reservedBits ↔ LegalOpcode c ∧ ReservedBitSet c) ∧
    (r = .error .bufRange ↔ LegalOpcode c ∧ ¬ ReservedBitSet c ∧ RangeOutside c) ∧
    ((∃ i, r = .ok i) ↔ LegalOpcode c ∧ ¬ ReservedBitSet c ∧ ¬ RangeOutside c) := by
  cases h with
  | illegalOpcode hop => simp [hop]
  | reservedBits hop hres => simp [hop, hres]
  | bufRange hop hres hout => simp [hop, hres, hout]
  | ok i hop hres hout => simp [hop, hres, hout]

/-- Settles O4: the decoder's outcome is that of the checks, and a legal word is one that decodes. -/
theorem decodeAppliesItsChecksInOrder : Obligations.DecodeAppliesItsChecksInOrder := by
  intro c
  rw [legalWord_iff]
  exact (decode_checkOutcome c).eq_iff_checks

end Sys2Proof
end

section
/-! PROOF. What a step may put on the stream (42_sample_synthesizer.md R125, R130): the sample that the running
command offers to an accepting sink, on an engine turn, and nothing else. -/

namespace Sys2Proof.Machine

/-- The offer of each command (R22, R103, R105, R126, R127): MOD and BIT the ROM entry of their tone, SIL and
an ATTN of mode 1 a zero; an idle engine and an ATTN of mode 0 have none. -/
theorem State.sData_eq_some_iff (s : State) (v : Word) :
    s.sData = some v ↔
      ((s.op = .mod ∨ s.op = .bit) ∧ (s.cfg.rom s.tone)[s.k.toNat]? = some v) ∨
      (s.op = .sil ∧ v = silence) ∨ (s.op = .attn ∧ s.azero = true ∧ v = silence) := by
  have hrom : (s.romRead s.tone s.k).toOption = some v ↔ (s.cfg.rom s.tone)[s.k.toNat]? = some v := by
    unfold State.romRead
    cases (s.cfg.rom s.tone)[s.k.toNat]? <;> simp [Except.toOption]
  cases hop : s.op with
  | idle => simp [State.sData, hop]
  | mod | bit => simp [State.sData, hop, hrom]
  | sil | attn => simp [State.sData, hop, @eq_comm Word v]

/-- An entry of a row of `TONE_ROM` is one of the space or of the mark table (R14). -/
theorem Config.mem_of_rom_getElem? {c : Config} {tone : BitVec 1} {i : Nat} {v : Word}
    (h : (c.rom tone)[i]? = some v) : v ∈ c.space ∨ v ∈ c.mark := by
  have hmem : v ∈ c.rom tone := List.mem_of_getElem? h
  unfold Config.rom at hmem
  split at hmem
  · exact .inr hmem
  · exact .inl hmem

/-- What is offered is a table entry or `+0.0` (R125). -/
theorem State.mem_table_or_zero_of_sData {s : State} {v : Word} (h : s.sData = some v) :
    v ∈ s.cfg.space ∨ v ∈ s.cfg.mark ∨ v = silence := by
  obtain ⟨-, hrom⟩ | ⟨-, hzero⟩ | ⟨-, -, hzero⟩ := (s.sData_eq_some_iff v).1 h
  · exact (Config.mem_of_rom_getElem? hrom).imp_right .inl
  · exact .inr (.inr hzero)
  · exact .inr (.inr hzero)

/-- A state whose record is that of `s.emit w` has received `w` and no other sample. -/
theorem State.eq_of_emit {s t : State} {v w : Word} (hreceived : t.received = w :: s.received)
    (hadded : t.stream = s.stream ++ [v]) : w = v := by
  simpa [State.stream, hreceived] using hadded

/-- The sample that an engine turn transfers is the one offered before it (R22, R129, R156). -/
theorem EngineEffect.sData_of_added {s t : State} {v : Word} (h : EngineEffect s t)
    (hadded : t.stream = s.stream ++ [v]) : s.sData = some v := by
  rw [s.sData_eq_some_iff]
  cases h with
  | rest | wait | emptyCommand | dispatchMod | dispatchBit | dispatchSil | dispatchAttn
  | attnSilent | attnSilentEnd => exact absurd hadded (by simp [State.stream])
  | unitSample w _ _ hw | unitEnd w _ _ hw =>
    obtain rfl := State.eq_of_emit rfl hadded
    tauto
  | modNextBit w hop _ _ hw | modNextByte w hop _ _ hw | modEnd w hop _ _ hw =>
    obtain rfl := State.eq_of_emit rfl hadded
    exact .inl ⟨.inl hop, hw⟩
  | attnZero hop hz | attnZeroEnd hop hz =>
    exact .inr (.inr ⟨hop, hz, (State.eq_of_emit rfl hadded).symm⟩)

/-- Only the engine's turn moves the stream: the host's, the sink's and reset leave it (R130, R220). -/
theorem TurnEffect.stream_of_ne_engine {s t : State} {u : Turn} (h : TurnEffect s u t)
    (hu : u ≠ .engine) : t.stream = s.stream := by
  cases h with
  | engine => exact absurd rfl hu
  | refusedCmd | refusedBuf | stored => simp [State.stream]
  | read | writeIgnored | writeCtrl | writeStatus | writeScount | queued | polled | pollAgain | sink
  | reset => rfl

/-- All that a step can do to the stream: leave it, or on an engine turn transfer the sample offered to an
accepting sink (R129, R130). -/
theorem step_stream_cases (s t : State) (hstep : step s = .next t) :
    t.stream = s.stream ∨
    (s.nextTurn = .engine ∧ s.sReady = true ∧ s.sValid = true ∧
      ∃ v, s.sData = some v ∧ t.stream = s.stream ++ [v]) := by
  have heffect := step_effect s t hstep
  by_cases hturn : s.nextTurn = .engine
  · rw [hturn] at heffect
    cases heffect with
    | engine h =>
      cases h.countedTransfer with
      | none hkept => exact .inl hkept
      | one v hvalid hready hadded =>
        exact .inr ⟨hturn, hready, hvalid, v, h.sData_of_added hadded, hadded⟩
  · exact .inl (heffect.stream_of_ne_engine hturn)

/-- Settles O35: a step adds at most the sample offered, and each offer is a table entry or `+0.0`. -/
theorem everySampleIsATableEntryOrZero : Obligations.EverySampleIsATableEntryOrZero := by
  intro s t hstep
  obtain hkept | ⟨-, -, -, v, hoffer, hadded⟩ := step_stream_cases s t hstep
  · exact .inl hkept
  · exact .inr ⟨v, hadded, State.mem_table_or_zero_of_sData hoffer⟩

/-- Settles O36: a changed stream means an engine turn whose offer the sink accepts, and only a running
command offers. -/
theorem onlyARunningCommandEmits : Obligations.OnlyARunningCommandEmits := by
  refine ⟨fun s t hstep hchanged => ?_, fun s hidle => ?_⟩
  · obtain hkept | ⟨hturn, hready, hvalid, -⟩ := step_stream_cases s t hstep
    · exact absurd hkept hchanged
    · exact ⟨hturn, hready, s.sValid_iff.1 hvalid⟩
  · rw [State.sValid, hidle]

end Sys2Proof.Machine
end

section
/-! PROOF. The host's writes that do little (44_host_access.md R174, R176): SCOUNT takes only a clear, ID, PARAM
and the unmapped offsets take nothing, and CMD alone reaches the queue. -/

namespace Sys2Proof.Machine

/-- Settles O53: the write of the register at address 4 is the clear, and no data word enters it. -/
theorem scountWriteClears : Obligations.ScountWriteClears := by
  intro s rest d
  have hreg : Reg.ofAddr 4#10 = .scount := by decide
  rw [step_write, hreg, writeReg, writeScount]

/-- Writes outside CTRL, STATUS, CMD, SCOUNT and the BUF window are ignored (R176). -/
theorem TurnEffect.eq_of_write_ignored {s t : State} {a : BitVec 10} {d : Word}
    (h : TurnEffect s (.write a d) t)
    (ha : a.toNat = 0 ∨ 5 ≤ a.toNat ∧ a.toNat < 512 ∨ 640 ≤ a.toNat) : t = s := by
  cases h with
  | writeIgnored => rfl
  | writeCtrl | writeStatus | writeScount | queued | refusedCmd => exact absurd ha (by decide)
  | stored _ j _ hbuf | refusedBuf _ j _ hbuf =>
    have := j.isLt
    omega

/-- A write anywhere but to CMD leaves the queue as it is (R173). -/
theorem TurnEffect.queue_of_write_ne_cmd {s t : State} {a : BitVec 10} {d : Word}
    (h : TurnEffect s (.write a d) t) (ha : a ≠ 3#10) : t.queue = s.queue := by
  cases h with
  | queued | refusedCmd => exact absurd rfl ha
  | stored | refusedBuf => simp
  | writeIgnored | writeCtrl | writeStatus | writeScount => rfl

/-- Settles O56: a split over what a write can do, and CMD reads as 0. -/
theorem ignoredWritesChangeNothing : Obligations.IgnoredWritesChangeNothing := by
  refine ⟨fun s rest a d ha => ?_, fun s t a d hturn hstep hqueue => ?_, fun s rest => ?_⟩
  · have heffect : TurnEffect { s with agenda := rest } (.write a d) _ := hostWrite_effect a d _
    exact (step_write s rest a d).trans (congrArg _ (heffect.eq_of_write_ignored ha))
  · have heffect := step_effect s t hstep
    rw [hturn] at heffect
    exact not_not.1 (mt heffect.queue_of_write_ne_cmd hqueue)
  · exact step_read s rest 3#10

end Sys2Proof.Machine
end

section
/-! PROOF. The error register of 60_exceptions.md R202: a refused access is one raise of its error, and a
latched error outlives every turn but reset and the STATUS write that clears it. -/

namespace Sys2Proof.Machine

/-! ### A refused access -/

/-- A CMD write that is refused, for its word or for the full queue, only raises its error (R173). -/
theorem writeCmd_of_refused (c : Word) (e : CmdError) (s : State)
    (h : decode c = .error e ∨ legalWord c = true ∧ s.queue.length = 16 ∧ e = .cmdqOverflow) :
    writeCmd c s = s.raise e := by
  obtain hd | ⟨hlegal, hlength, rfl⟩ := h
  · simp only [writeCmd, hd]
  · obtain ⟨i, hd⟩ := (legalWord_iff c).1 hlegal
    have hfull : s.qfull = true := decide_eq_true hlength
    simp only [writeCmd, hd, hfull, if_true]

/-- The step of a refused CMD write is the raise of its error (R173). -/
theorem step_cmdWrite_of_refused (s : State) (rest : List Turn) (c : Word) (e : CmdError)
    (h : decode c = .error e ∨ legalWord c = true ∧ s.queue.length = 16 ∧ e = .cmdqOverflow) :
    step { s with agenda := .write 3#10 c :: rest } = .next ({ s with agenda := rest }.raise e) := by
  have hreg : Reg.ofAddr 3#10 = .cmd := by decide
  rw [step_write, hreg, writeReg, writeCmd_of_refused c e { s with agenda := rest } h]

/-- A raise changes nothing while an error is latched (R202). -/
theorem State.raise_of_err (s : State) (e : CmdError) (herr : s.err = true) : s.raise e = s := if_pos herr

/-! ### The latched code -/

/-- The engine neither latches nor clears an error (R201, R202). -/
theorem EngineEffect.err_errcode {s t : State} (h : EngineEffect s t) :
    t.err = s.err ∧ t.errcode = s.errcode := by
  cases h with
  | rest | wait | emptyCommand | dispatchMod | dispatchBit | dispatchSil | dispatchAttn | unitSample
  | unitEnd | modNextBit | modNextByte | modEnd | attnSilent | attnSilentEnd | attnZero | attnZeroEnd =>
    exact ⟨rfl, rfl⟩

/-- A latched error and its code are kept by every turn but reset and a STATUS write of bit 4: a STATUS
write without it clears at most DONE, and a further refused access is a raise without effect (R172, R202). -/
theorem TurnEffect.err_errcode_kept {s t : State} {u : Turn} (h : TurnEffect s u t)
    (herr : s.err = true) (hreset : u ≠ .reset)
    (hclear : ∀ d, u = .write 2#10 d → d.getLsbD 4 = false) :
    t.err = true ∧ t.errcode = s.errcode := by
  cases h with
  | engine h =>
    obtain ⟨hkept, hcode⟩ := h.err_errcode
    exact ⟨hkept.trans herr, hcode⟩
  | writeStatus d =>
    have hbit : d.getLsbD 4 = false := hclear d rfl
    simp only [herr, hbit, Bool.not_false, Bool.and_self, Bool.false_eq_true, if_false, and_self]
  | refusedCmd | refusedBuf => simp [State.raise_of_err, herr]
  | reset => exact absurd rfl hreset
  | read | writeIgnored | writeCtrl | writeScount | queued | stored | polled | pollAgain | sink =>
    exact ⟨herr, rfl⟩

/-- Settles O42: both refused writes are a raise, which ERR guards, and the latch is read off what the next
turn can do. -/
theorem firstErrorWins : Obligations.FirstErrorWins := by
  refine ⟨fun s c e rest hrefused => ?_, fun s a d rest ha hlocked => ?_,
    fun s t hstep herr hreset hclear => ?_⟩
  · exact step_cmdWrite_of_refused s rest c e hrefused
  · exact step_bufWrite_of_locked s rest a _ d (Reg.ofAddr_buf a ha) hlocked
  · exact (step_effect s t hstep).err_errcode_kept herr hreset hclear

end Sys2Proof.Machine
end

section
/-! PROOF. The encoding (30_encoding.md): the legal words are exactly the encodings of the well-formed
commands, each command has one word, and the assembler gives no other. -/

namespace Sys2Proof

/-- A MOD is well formed when its range ends inside the buffer (R81, R88). -/
theorem wellFormed_mod_iff (base : BitVec 9) (len : BitVec 10) :
    (Instr.mod base len).wellFormed = true ↔ base.toNat + len.toNat ≤ 512 := decide_eq_true_iff

/-- Every field of an encoded MOD reads back (R81). -/
theorem decode_encode_mod (base : BitVec 9) (len : BitVec 10) (hrange : rangeInBuffer base len = true) :
    decode (encode (.mod base len)) = .ok (.mod base len) := by
  have hb := base.isLt
  have hl := len.isLt
  have hnumber := encode_mod_toNat base len
  generalize encode (.mod base len) = c at hnumber ⊢
  have hop : opcodeOf c = 1#4 := (opcodeOf_eq_iff c 1#4).2 (by rw [hnumber, BitVec.toNat_ofNat]; omega)
  have hhigh : c.extractLsb' 25 3 = 0#3 :=
    (field_eq_iff c 25 3 _).2 (by rw [hnumber, BitVec.toNat_ofNat]; omega)
  have hlow : c.extractLsb' 10 6 = 0#6 :=
    (field_eq_iff c 10 6 _).2 (by rw [hnumber, BitVec.toNat_ofNat]; omega)
  have hbase : c.extractLsb' 16 9 = base := (field_eq_iff c 16 9 _).2 (by rw [hnumber]; omega)
  have hlen : c.extractLsb' 0 10 = len := (field_eq_iff c 0 10 _).2 (by rw [hnumber]; omega)
  simp [decode, decodeMod, hop, hhigh, hlow, hbase, hlen, hrange]

/-- So does the tone of an encoded BIT (R82): there are two. -/
theorem decode_encode_bit (v : BitVec 1) : decode (encode (.bit v)) = .ok (.bit v) := by
  revert v
  decide

/-- SIL has one word (R83). -/
theorem decode_encode_sil : decode (encode .sil) = .ok .sil := by decide

/-- Every field of an encoded ATTN reads back (R84). -/
theorem decode_encode_attn (d : BitVec 8) : decode (encode (.attn d)) = .ok (.attn d) := by
  have hd := d.isLt
  have hnumber := encode_attn_toNat d
  generalize encode (.attn d) = c at hnumber ⊢
  have hop : opcodeOf c = 4#4 := (opcodeOf_eq_iff c 4#4).2 (by rw [hnumber, BitVec.toNat_ofNat]; omega)
  have hreserved : c.extractLsb' 8 20 = 0#20 :=
    (field_eq_iff c 8 20 _).2 (by rw [hnumber, BitVec.toNat_ofNat]; omega)
  have hseconds : c.extractLsb' 0 8 = d := (field_eq_iff c 0 8 _).2 (by rw [hnumber]; omega)
  simp [decode, decodeAttn, hop, hreserved, hseconds]

/-- Settles O1: command by command, each field of the encoding reads back. -/
theorem decodeReadsBackEveryEncoding : Obligations.DecodeReadsBackEveryEncoding := by
  intro i hwf
  cases i with
  | mod base len => exact decode_encode_mod base len hwf
  | bit v => exact decode_encode_bit v
  | sil => exact decode_encode_sil
  | attn d => exact decode_encode_attn d

/-- Settles O2: the format's fields and its zero bits add up to the word again. -/
theorem decodedWordIsItsEncoding : Obligations.DecodedWordIsItsEncoding := by
  intro c i hdecode
  have hc := c.isLt
  obtain ⟨hop, hhigh, hlow, hrange, rfl⟩ | ⟨hop, hzero, rfl⟩ | ⟨hop, hzero, rfl⟩ | ⟨hop, hzero, rfl⟩ :=
    decode_ok_cases c i hdecode
  · refine ⟨word_ext _ _ ?_, ?_⟩
    · rw [encode_mod_toNat, field_toNat, field_toNat]
      omega
    · rw [wellFormed_mod_iff, field_toNat, field_toNat, pow_zero, Nat.div_one]
      exact hrange
  · refine ⟨word_ext _ _ ?_, rfl⟩
    rw [encode_bit_toNat, field_toNat]
    omega
  · refine ⟨word_ext _ _ ?_, rfl⟩
    rw [encode_sil_toNat]
    omega
  · refine ⟨word_ext _ _ ?_, rfl⟩
    rw [encode_attn_toNat, field_toNat]
    omega

/-- Settles O3: eight closed words, evaluated. -/
theorem writtenWordsDecodeAsTheTablesSay : Obligations.WrittenWordsDecodeAsTheTablesSay := by
  unfold Obligations.WrittenWordsDecodeAsTheTablesSay
  decide

/-- The legal words are the encodings of the well-formed commands (R88). -/
theorem legalWord_iff_encode (c : Word) :
    legalWord c = true ↔ ∃ i : Instr, i.wellFormed = true ∧ encode i = c := by
  rw [legalWord_iff]
  constructor
  · rintro ⟨i, hdecode⟩
    obtain ⟨hencode, hwf⟩ := decodedWordIsItsEncoding c i hdecode
    exact ⟨i, hwf, hencode⟩
  · rintro ⟨i, hwf, rfl⟩
    exact ⟨i, decodeReadsBackEveryEncoding i hwf⟩

/-- Settles O5: each entry of the list is the number of one command's encoding. -/
theorem legalWordsAreExactlyTheListedOnes : Obligations.LegalWordsAreExactlyTheListedOnes := by
  intro c
  rw [legalWord_iff_encode]
  constructor
  · rintro ⟨i, hwf, rfl⟩
    cases i with
    | mod base len =>
      have hrange := (wellFormed_mod_iff base len).1 hwf
      have hbase := base.isLt
      exact .inl ⟨base.toNat, len.toNat, by omega, by omega, hrange, encode_mod_toNat base len⟩
    | bit v => have hv := v.isLt; rw [encode_bit_toNat]; omega
    | sil => rw [encode_sil_toNat]; omega
    | attn d => have hd := d.isLt; rw [encode_attn_toNat]; omega
  · rintro (⟨base, len, hbase, hlen, hrange, hnumber⟩ | hnumber | hnumber | hnumber | ⟨hlow, hhigh⟩)
    · have hb : (BitVec.ofNat 9 base).toNat = base := Nat.mod_eq_of_lt (by omega)
      have hl : (BitVec.ofNat 10 len).toNat = len := Nat.mod_eq_of_lt (by omega)
      refine ⟨.mod (BitVec.ofNat 9 base) (BitVec.ofNat 10 len), ?_, word_ext _ _ ?_⟩
      · rw [wellFormed_mod_iff, hb, hl]
        exact hrange
      · rw [encode_mod_toNat, hb, hl, hnumber]
    · exact ⟨.bit 0#1, rfl, word_ext _ _ ((encode_bit_toNat 0#1).trans hnumber.symm)⟩
    · exact ⟨.bit 1#1, rfl, word_ext _ _ ((encode_bit_toNat 1#1).trans hnumber.symm)⟩
    · exact ⟨.sil, rfl, word_ext _ _ (encode_sil_toNat.trans hnumber.symm)⟩
    · obtain ⟨d, hd⟩ : ∃ d : BitVec 8, c.toNat = 0x40000000 + d.toNat :=
        ⟨BitVec.ofNat 8 (c.toNat - 0x40000000), by rw [BitVec.toNat_ofNat]; omega⟩
      exact ⟨.attn d, rfl, word_ext _ _ ((encode_attn_toNat d).trans hd.symm)⟩

end Sys2Proof

namespace Sys2Proof.Machine

/-! ### The assembler -/

/-- A MOD that the assembler accepts has its operands in range, and they are the numbers written (R90). -/
theorem asmMod_eq_some {base len : Nat} {i : Instr} (h : asmMod base len = some i) :
    i.wellFormed = true ∧ (encode i).toNat = 0x10000000 + base * 2 ^ 16 + len := by
  unfold asmMod bufBytes at h
  split_ifs at h with hrange
  obtain ⟨hbase, hlen, hsum⟩ := hrange
  cases h
  have hb : (BitVec.ofNat 9 base).toNat = base := Nat.mod_eq_of_lt hbase
  have hl : (BitVec.ofNat 10 len).toNat = len := Nat.mod_eq_of_lt (by omega)
  rw [wellFormed_mod_iff, encode_mod_toNat, hb, hl]
  exact ⟨hsum, rfl⟩

/-- The assembler refuses a MOD exactly for its operands (R90). -/
theorem asmMod_eq_none_iff (base len : Nat) :
    asmMod base len = none ↔ ¬ (base ≤ 511 ∧ len ≤ 512 ∧ base + len ≤ 512) := by
  unfold asmMod bufBytes
  rw [ite_eq_right_iff]
  simp only [reduceCtorEq, imp_false, not_iff_not]
  omega

/-- Every command of an accepted line is well formed: only a MOD could fail to be (R88, R90, R91). -/
theorem Asm.expand_wellFormed {a : Asm} {is : List Instr} (h : a.expand = some is) :
    ∀ i ∈ is, i.wellFormed = true := by
  cases a with
  | mod base len =>
    obtain ⟨m, hm, rfl⟩ := Option.map_eq_some_iff.1 h
    simpa using (asmMod_eq_some hm).1
  | burst base len =>
    obtain ⟨m, hm, rfl⟩ := Option.map_eq_some_iff.1 h
    simpa using ⟨(asmMod_eq_some hm).1, rfl⟩
  | bit v =>
    obtain ⟨-, ⟨⟩⟩ := Option.ite_none_right_eq_some.1 h
    simp [Instr.wellFormed]
  | attn d =>
    obtain ⟨-, ⟨⟩⟩ := Option.ite_none_right_eq_some.1 h
    simp [Instr.wellFormed]
  | pause n =>
    obtain ⟨-, ⟨⟩⟩ := Option.ite_none_right_eq_some.1 h
    intro i hi
    rw [List.eq_of_mem_replicate hi]
    rfl
  | sil | mark | space => cases h; simp [Instr.wellFormed]

/-- Settles O6: an accepted operand fits its field, so the field holds the number written. -/
theorem assemblerRefusesRatherThanTruncates : Obligations.AssemblerRefusesRatherThanTruncates := by
  refine ⟨fun a is h => Asm.expand_wellFormed h, fun base len => ?_, fun base len is h => ?_,
    fun d is h => ?_, fun v is h => ?_⟩
  · rw [Asm.expand, Option.map_eq_none_iff, asmMod_eq_none_iff]
  · obtain ⟨i, hi, rfl⟩ := Option.map_eq_some_iff.1 h
    obtain ⟨-, hnumber⟩ := asmMod_eq_some hi
    rw [← hnumber]
    simp
  · obtain ⟨hd, ⟨⟩⟩ := Option.ite_none_right_eq_some.1 h
    have hfield : (BitVec.ofNat 8 d).toNat = d := Nat.mod_eq_of_lt (by omega)
    have hnumber := encode_attn_toNat (BitVec.ofNat 8 d)
    rw [hfield] at hnumber
    refine ⟨hd, ?_⟩
    rw [← hnumber]
    simp
  · obtain ⟨hv, ⟨⟩⟩ := Option.ite_none_right_eq_some.1 h
    have hfield : (BitVec.ofNat 1 v).toNat = v := Nat.mod_eq_of_lt (by omega)
    have hnumber := encode_bit_toNat (BitVec.ofNat 1 v)
    rw [hfield] at hnumber
    refine ⟨hv, ?_⟩
    rw [← hnumber]
    simp

end Sys2Proof.Machine
end

section
/-! PROOF. The dispatch of a command (43_command_engine.md R151, R152): when the engine makes one, that it
is `exec` of the head command on the popped queue, and what each command's dispatch makes of the state. -/

namespace Sys2Proof.Machine

/-! ### The dispatch of each command -/

/-- A dispatch always goes on: the first byte of a MOD is inside the buffer (R70, R200). -/
theorem exec_goes_on (i : Instr) (s : State) : ∃ t, exec i s = .next t := by
  cases i with
  | mod base len => obtain ⟨-, h⟩ | ⟨-, h⟩ := execMod_cases base len s <;> exact ⟨_, h⟩
  | bit v => exact ⟨_, rfl⟩
  | sil => exact ⟨_, rfl⟩
  | attn d => obtain ⟨-, h⟩ | ⟨-, h⟩ := execAttn_cases d s <;> exact ⟨_, h⟩

/-- The dispatch of an empty range completes the command (R103, R153). -/
theorem exec_mod_zero (base : BitVec 9) (s : State) : exec (.mod base 0#10) s = .next s.complete := by
  rw [exec, execMod, if_pos rfl]

/-- The dispatch of any other range starts at bit 0 of its first byte (R103, R104). -/
theorem exec_mod_of_ne_zero (base : BitVec 9) {len : BitVec 10} (hlen : len ≠ 0#10) (s : State) :
    exec (.mod base len) s = .next { s with
      op := .mod, ptr := modPtr base, left := len, cur := s.bufByte base.toNat, bitn := 0#3,
      tone := bitTone (s.bufByte base.toNat) 0#3, k := 0#7 } := by
  obtain ⟨hzero, -⟩ | ⟨-, hnext⟩ := execMod_cases base len s
  · exact absurd hzero hlen
  · exact hnext

/-- The dispatch of no seconds completes the command (R127, R153). -/
theorem exec_attn_zero (s : State) : exec (.attn 0#8) s = .next s.complete := by
  rw [exec, execAttn, if_pos rfl]

/-- The dispatch of any other ATTN sets its count and latches its mode (R44, R127). -/
theorem exec_attn_of_ne_zero {d : BitVec 8} (hd : d ≠ 0#8) (s : State) :
    exec (.attn d) s = .next { s with op := .attn, acnt := attnCount d, azero := s.attnZero } :=
  if_neg hd

/-- Settles O8: the two branches of `dispatch_MOD`. -/
theorem modDispatchStartsAtItsFirstByte : Obligations.ModDispatchStartsAtItsFirstByte := by
  intro s base len
  refine ⟨fun hlen => ?_, fun hlen => exec_mod_of_ne_zero base hlen s⟩
  rw [hlen, exec_mod_zero, State.complete]

/-- Settles O9: `dispatch_BIT` has one branch. -/
theorem bitDispatchSelectsItsTone : Obligations.BitDispatchSelectsItsTone := by
  intro s v
  rw [exec, execBit]

/-- Settles O10: `dispatch_SIL` has one branch. -/
theorem silDispatchStartsAUnit : Obligations.SilDispatchStartsAUnit := by
  intro s
  rw [exec, execSil]

/-- Settles O11: the two branches of `dispatch_ATTN`; the count is an exact product of at most 255 seconds. -/
theorem attnDispatchLatchesItsMode : Obligations.AttnDispatchLatchesItsMode := by
  intro s d
  refine ⟨fun hd => ?_, fun hd => ⟨attnCount d, attnCount_toNat d, ?_, exec_attn_of_ne_zero hd s⟩⟩
  · rw [hd, exec_attn_zero, State.complete]
  · have := d.isLt
    rw [attnCount_toNat]
    omega

/-! ### The frame of a dispatch -/

/-- What no dispatch changes: everything but DONE and the engine record (R152). -/
structure DispatchKeeps (s t : State) : Prop where
  ctrl : t.ctrl = s.ctrl
  err : t.err = s.err
  errcode : t.errcode = s.errcode
  scount : t.scount = s.scount
  queue : t.queue = s.queue
  cfg : t.cfg = s.cfg
  hbRdata : t.hbRdata = s.hbRdata
  sReady : t.sReady = s.sReady
  received : t.received = s.received
  agenda : t.agenda = s.agenda
  draws : t.draws = s.draws
  mem : t.mem = s.mem

/-- The buffer's bytes are those of its list and its drawing (R45, R69). -/
theorem State.bufByte_congr {s t : State} (hmem : t.mem = s.mem) (hdraws : t.draws = s.draws) (a : Nat) :
    t.bufByte a = s.bufByte a := by
  rw [State.bufByte, State.bufByte, State.unlistedByte, State.unlistedByte, hmem, hdraws]

/-- Every dispatch keeps what is not the engine's (R152). -/
theorem exec_keeps {i : Instr} {s t : State} (h : exec i s = .next t) : DispatchKeeps s t := by
  cases i with
  | mod base len =>
    obtain ⟨-, e⟩ | ⟨-, e⟩ := execMod_cases base len s <;>
    · cases e.symm.trans h
      constructor <;> rfl
  | bit v => cases h; constructor <;> rfl
  | sil => cases h; constructor <;> rfl
  | attn d =>
    obtain ⟨-, e⟩ | ⟨-, e⟩ := execAttn_cases d s <;>
    · cases e.symm.trans h
      constructor <;> rfl

/-- A dispatch leaves DONE alone unless it completes with an empty queue (R153). -/
theorem exec_done {i : Instr} {s t : State} (h : exec i s = .next t) :
    t.done = s.done ∨ (t.done = true ∧ t.op = .idle ∧ t.queue = []) := by
  have hcomplete : s.complete.done = s.done ∨
      (s.complete.done = true ∧ s.complete.op = .idle ∧ s.complete.queue = []) := by
    by_cases hq : s.queue = [] <;> simp [State.qempty, hq]
  cases i with
  | mod base len =>
    obtain ⟨-, e⟩ | ⟨-, e⟩ := execMod_cases base len s <;> cases e.symm.trans h
    · exact hcomplete
    · exact .inl rfl
  | bit v => cases h; exact .inl rfl
  | sil => cases h; exact .inl rfl
  | attn d =>
    obtain ⟨-, e⟩ | ⟨-, e⟩ := execAttn_cases d s <;> cases e.symm.trans h
    · exact hcomplete
    · exact .inl rfl

/-- Settles O12: no dispatch touches what is not the engine's, and each command writes its own fields of the
record. -/
theorem dispatchFrame : Obligations.DispatchFrame := by
  intro i s t h
  have hkeeps := exec_keeps h
  refine ⟨⟨hkeeps.ctrl, hkeeps.err, hkeeps.errcode, hkeeps.scount, hkeeps.queue, hkeeps.cfg,
    hkeeps.hbRdata, hkeeps.sReady, hkeeps.received, hkeeps.agenda, hkeeps.draws⟩,
    State.bufByte_congr hkeeps.mem hkeeps.draws, exec_done h, ?_⟩
  cases i with
  | mod base len =>
    obtain ⟨-, e⟩ | ⟨-, e⟩ := execMod_cases base len s <;>
    · cases e.symm.trans h
      exact ⟨rfl, rfl⟩
  | bit v => cases h; exact ⟨rfl, rfl, rfl, rfl, rfl, rfl⟩
  | sil => cases h; exact ⟨rfl, rfl, rfl, rfl, rfl, rfl, rfl⟩
  | attn d =>
    obtain ⟨-, e⟩ | ⟨-, e⟩ := execAttn_cases d s <;>
    · cases e.symm.trans h
      exact ⟨rfl, rfl, rfl, rfl, rfl, rfl⟩

/-! ### When the engine dispatches -/

/-- The step of an engine turn. -/
theorem step_engine (s : State) (rest : List Turn) :
    step { s with agenda := .engine :: rest } = engineStep { s with agenda := rest } :=
  step_of_agenda _ .engine rest rfl

/-- A dispatch that is enabled is `exec` of the head command on the popped queue (R151, R152). -/
theorem engineStep_of_canDispatch {s : State} {c : Word} {q : List Word} {i : Instr}
    (hcan : s.canDispatch = true) (hq : s.queue = c :: q) (hd : decode c = .ok i) :
    engineStep s = exec i { s with queue := q } := by
  obtain ⟨hop, -⟩ := s.canDispatch_iff.1 hcan
  simp only [engineStep, hop, hcan, if_true, dispatch, hq, hd]

/-- An enabled dispatch goes on only from a head word that decodes (log 11). -/
theorem exec_of_canDispatch {s t : State} (hcan : s.canDispatch = true) (h : engineStep s = .next t) :
    ∃ c q i, s.queue = c :: q ∧ decode c = .ok i ∧ exec i { s with queue := q } = .next t := by
  obtain ⟨hop, -⟩ := s.canDispatch_iff.1 hcan
  obtain ⟨-, ⟨-, hno⟩ | ⟨hbusy, -⟩⟩ | ⟨-, hexec⟩ | ⟨hbusy, -⟩ := engineStep_cases s t h
  · cases hcan.symm.trans hno
  · exact absurd hop hbusy
  · exact hexec
  · exact absurd hop hbusy

/-- An idle engine that may not dispatch takes no step (log 12). -/
theorem engineStep_of_rest {s : State} (hop : s.op = .idle) (hno : s.canDispatch = false) :
    engineStep s = .next s := by
  simp only [engineStep, hop, hno, if_true, Bool.false_eq_true, if_false]

/-- Settles O7: with the three conditions and a queue that is not empty the dispatch is enabled. -/
theorem stepRunsTheDecodedCommand : Obligations.StepRunsTheDecodedCommand := by
  intro s c q i rest hop hrun herr hd
  have hcan (turns : List Turn) :
      ({ s with queue := c :: q, agenda := turns } : State).canDispatch = true :=
    (State.canDispatch_iff _).2 ⟨hop, hrun, herr, List.cons_ne_nil c q⟩
  refine ⟨?_, ?_⟩
  · exact (step_engine { s with queue := c :: q } rest).trans
      (engineStep_of_canDispatch (hcan rest) rfl hd)
  · exact (step_nil _ rfl).trans (engineStep_of_canDispatch (hcan []) rfl hd)

/-- Only a dispatch takes anything from the queue, and it takes the head (R41, R152). -/
theorem EngineEffect.queue_cases {s t : State} (h : EngineEffect s t) :
    t.queue = s.queue ∨ (s.canDispatch = true ∧ ∃ c, legalWord c = true ∧ s.queue = c :: t.queue) := by
  cases h with
  | rest | wait | unitSample | unitEnd | modNextBit | modNextByte | modEnd | attnSilent | attnSilentEnd
  | attnZero | attnZeroEnd => exact .inl rfl
  | emptyCommand hcan c _ i hq hd | dispatchMod hcan c _ _ _ hq hd | dispatchBit hcan c _ _ hq hd
  | dispatchSil hcan c _ hq hd | dispatchAttn hcan c _ _ hq hd =>
    exact .inr ⟨hcan, c, (legalWord_iff c).2 ⟨_, hd⟩, hq⟩

/-- Settles O13: the four conditions are `canDispatch`, and only a dispatch pops the queue. -/
theorem dispatchIsEnabledExactlyWhenAllFourHold : Obligations.DispatchIsEnabledExactlyWhenAllFourHold := by
  intro s rest before after four
  have hfour : four ↔ after.canDispatch = true := after.canDispatch_iff.symm
  have hstep : step before = engineStep after := step_engine s rest
  refine ⟨fun h => ?_, fun h t ht => ?_, fun hop h => ?_⟩
  · have hcan := hfour.1 h
    obtain ⟨-, -, -, hne⟩ := h
    obtain ⟨c, q, hq⟩ := List.exists_cons_of_ne_nil hne
    have hexec (i : Instr) (hd : decode c = .ok i) : step before = exec i { after with queue := q } :=
      hstep.trans (engineStep_of_canDispatch hcan hq hd)
    refine ⟨c, q, hq, hexec, fun hlegal => ?_, fun t ht => ?_⟩
    · obtain ⟨i, hd⟩ := (legalWord_iff c).1 hlegal
      obtain ⟨t, ht⟩ := exec_goes_on i { after with queue := q }
      exact ⟨t, (hexec i hd).trans ht, (exec_keeps ht).queue⟩
    · obtain ⟨c', q', i, hq', hd, ht⟩ := exec_of_canDispatch hcan (hstep.symm.trans ht)
      cases hq.symm.trans hq'
      exact ⟨(exec_keeps ht).queue, (legalWord_iff c).2 ⟨i, hd⟩⟩
  · obtain hkept | ⟨hcan, -⟩ := (engineStep_effect after t (hstep.symm.trans ht)).queue_cases
    · exact hkept
    · exact absurd (hfour.2 hcan) h
  · exact hstep.trans (engineStep_of_rest hop (Bool.eq_false_iff.2 (mt hfour.2 h)))

end Sys2Proof.Machine
end

section
/-! PROOF. The engine's steps (41_afsk_modulator.md R103, R105; 42_sample_synthesizer.md R126, R127,
R129): the effects listed for an engine turn are the engine's steps, both ways, so a step is computed by
naming its effect. -/

namespace Sys2Proof.Machine

/-- A running command steps unless its offer waits for the sink (R129, R156). -/
theorem engineStep_of_running {s : State} (hop : s.op ≠ .idle) (hsink : s.sValid = true → s.sReady = true) :
    engineStep s = runStep s := by
  have hgo : (s.sValid && !s.sReady) = false := by
    cases hv : s.sValid with
    | false => rfl
    | true => rw [hsink hv]; rfl
  rw [engineStep, if_neg hop, hgo, if_neg Bool.false_ne_true]

/-- A MOD on an accepting sink takes `step_MOD`. -/
theorem engineStep_of_mod {s : State} (hop : s.op = .mod) (hr : s.sReady = true) :
    engineStep s = stepMod s := by
  rw [engineStep_of_running (by rw [hop]; exact Op.noConfusion) fun _ => hr, runStep, hop]

/-- A BIT on an accepting sink takes `step_BIT`. -/
theorem engineStep_of_bit {s : State} (hop : s.op = .bit) (hr : s.sReady = true) :
    engineStep s = stepBit s := by
  rw [engineStep_of_running (by rw [hop]; exact Op.noConfusion) fun _ => hr, runStep, hop]

/-- A SIL on an accepting sink takes `step_SIL`. -/
theorem engineStep_of_sil {s : State} (hop : s.op = .sil) (hr : s.sReady = true) :
    engineStep s = stepSil s := by
  rw [engineStep_of_running (by rw [hop]; exact Op.noConfusion) fun _ => hr, runStep, hop]

/-- An ATTN takes `step_ATTN`, which needs the sink only in mode 1. -/
theorem engineStep_of_attn {s : State} (hop : s.op = .attn) (hr : s.azero = true → s.sReady = true) :
    engineStep s = stepAttn s := by
  have hsink : s.sValid = true → s.sReady = true := by rwa [State.sValid, hop]
  rw [engineStep_of_running (by rw [hop]; exact Op.noConfusion) hsink, runStep, hop]

/-- The advance of a MOD after its sample, on the state whose sample is counted (R103). -/
theorem stepMod_of_rom {s : State} {w : Word} (hw : (s.cfg.rom s.tone)[s.k.toNat]? = some w) :
    stepMod s = if s.unitGoesOn then .next { s.emit w with k := s.k + 1#7 }
      else finishBitTone { s.emit w with k := 0#7 } := by
  rw [stepMod, s.romRead_of_some _ _ _ hw]

/-- The end of a byte that is not the last of its range: the next one is read (R103, R104). -/
theorem finishByte_of_goes_on (s : State) (hl : s.left - 1#10 ≠ 0#10) (hp : (s.ptr + 1#10).toNat < bufBytes) :
    finishByte s = .next { s with
      bitn := 0#3, left := s.left - 1#10, ptr := s.ptr + 1#10, cur := s.bufByte (s.ptr + 1#10).toNat,
      tone := bitTone (s.bufByte (s.ptr + 1#10).toNat) 0#3 } := by
  simp only [finishByte, if_neg hl, s.memRead_of_lt _ hp]

/-- Each effect listed for an engine turn is the engine's step: with `engineStep_effect`, the list says exactly
what the engine does. -/
theorem EngineEffect.engineStep_eq {s t : State} (h : EngineEffect s t) : engineStep s = .next t := by
  cases h with
  | rest hop hno => exact engineStep_of_rest hop hno
  | wait hop hv hr => simp only [engineStep, hop, hv, hr, if_false, Bool.not_false, Bool.and_self, if_true]
  | emptyCommand hcan c q i hq hd hi =>
    rw [engineStep_of_canDispatch hcan hq hd]
    obtain ⟨base, rfl⟩ | rfl := hi
    · exact exec_mod_zero base _
    · exact exec_attn_zero _
  | dispatchMod hcan c q base len hq hd hl =>
    rw [engineStep_of_canDispatch hcan hq hd]
    exact exec_mod_of_ne_zero base hl _
  | dispatchBit hcan c q v hq hd => rw [engineStep_of_canDispatch hcan hq hd, exec, execBit]
  | dispatchSil hcan c q hq hd => rw [engineStep_of_canDispatch hcan hq hd, exec, execSil]
  | dispatchAttn hcan c q d hq hd hz =>
    rw [engineStep_of_canDispatch hcan hq hd]
    exact exec_attn_of_ne_zero hz _
  | unitSample w hr hk hw =>
    obtain ⟨hop | hop, hw⟩ | ⟨hop, rfl⟩ := hw
    · rw [engineStep_of_mod hop hr, stepMod_of_rom hw, if_pos hk]
    · simp only [engineStep_of_bit hop hr, stepBit, s.romRead_of_some _ _ _ hw, if_pos hk]
    · rw [engineStep_of_sil hop hr, stepSil, if_pos hk]
  | unitEnd w hr hk hw =>
    have hlast : ¬ s.unitGoesOn = true := Bool.eq_false_iff.1 hk
    obtain ⟨hop, hw⟩ | ⟨hop, rfl⟩ := hw
    · simp only [engineStep_of_bit hop hr, stepBit, s.romRead_of_some _ _ _ hw, if_neg hlast]
    · rw [engineStep_of_sil hop hr, stepSil, if_neg hlast]
  | modNextBit w hop hr hk hw hb =>
    rw [engineStep_of_mod hop hr, stepMod_of_rom hw, if_neg (Bool.eq_false_iff.1 hk), finishBitTone]
    exact if_pos hb
  | modNextByte w hop hr hk hw hb hl hp =>
    rw [engineStep_of_mod hop hr, stepMod_of_rom hw, if_neg (Bool.eq_false_iff.1 hk), finishBitTone]
    exact (if_neg hb).trans (finishByte_of_goes_on { s.emit w with k := 0#7 } hl hp)
  | modEnd w hop hr hk hw hb hl =>
    rw [engineStep_of_mod hop hr, stepMod_of_rom hw, if_neg (Bool.eq_false_iff.1 hk), finishBitTone]
    exact (if_neg hb).trans (if_pos hl)
  | attnSilent hop hz ha =>
    have hmode : ¬ s.azero = true := Bool.eq_false_iff.1 hz
    rw [engineStep_of_attn hop fun h => absurd h hmode, stepAttn, if_neg ha, attnSample, if_neg hmode]
  | attnSilentEnd hop hz ha =>
    have hmode : ¬ s.azero = true := Bool.eq_false_iff.1 hz
    rw [engineStep_of_attn hop fun h => absurd h hmode, stepAttn, if_pos ha, attnSample, if_neg hmode]
    rfl
  | attnZero hop hz hr ha =>
    rw [engineStep_of_attn hop fun _ => hr, stepAttn, if_neg ha, attnSample, if_pos hz]
  | attnZeroEnd hop hz hr ha =>
    rw [engineStep_of_attn hop fun _ => hr, stepAttn, if_pos ha, attnSample, if_pos hz]
    rfl

/-! ### One step of each command -/

/-- `k < SPB - 1`, as the statements write it. -/
theorem State.unitGoesOn_iff (s : State) : s.unitGoesOn = true ↔ s.k.toNat < s.cfg.spb.toNat - 1 :=
  decide_eq_true_iff

/-- The unit is at its last sample. -/
theorem State.unitGoesOn_eq_false_iff (s : State) :
    s.unitGoesOn = false ↔ ¬ s.k.toNat < s.cfg.spb.toNat - 1 := decide_eq_false_iff_not

/-- The number of the next bit, which is not the eighth. -/
theorem bitn_succ_toNat (n : BitVec 3) (h : n.toNat < 7) : (n + 1#3).toNat = n.toNat + 1 := by
  rw [BitVec.toNat_add, BitVec.toNat_ofNat]
  omega

/-- What is left after one of at least one: bytes of a range, or iterations of an ATTN. -/
theorem toNat_pred {w : Nat} (x : BitVec w) (h : 1 ≤ x.toNat) : (x - 1#w).toNat = x.toNat - 1 := by
  have hone : (1#w).toNat = 1 := by
    rw [BitVec.toNat_ofNat]
    exact Nat.mod_eq_of_lt (lt_of_le_of_lt h x.isLt)
  rw [BitVec.toNat_sub_of_le (by rwa [BitVec.le_def, hone]), hone]

/-- Nothing is left exactly after the last one. -/
theorem pred_eq_zero_iff {w : Nat} (x : BitVec w) (h : 1 ≤ x.toNat) : x - 1#w = 0#w ↔ x.toNat = 1 := by
  have hpred := toNat_pred x h
  constructor
  · intro hzero
    rw [hzero, BitVec.toNat_ofNat, Nat.zero_mod] at hpred
    omega
  · intro hone
    exact BitVec.eq_of_toNat_eq (by rw [hpred, hone, BitVec.toNat_ofNat, Nat.zero_mod])

/-- The next address of a range that goes on inside the buffer. -/
theorem ptr_succ_toNat (p : BitVec 10) (h : p.toNat < 512) : (p + 1#10).toNat = p.toNat + 1 := by
  rw [BitVec.toNat_add, BitVec.toNat_ofNat]
  omega

/-- Settles O14: each branch of the statement is one effect of a running MOD. -/
theorem modStepAdvancesSampleBitAndByte : Obligations.ModStepAdvancesSampleBitAndByte := by
  intro s w rest hop hr hw hrange hleft e next
  refine (step_engine s rest).trans (EngineEffect.engineStep_eq ?_)
  have hlast : s.left - 1#10 = 0#10 ↔ s.left.toNat = 1 := pred_eq_zero_iff s.left hleft
  have hunit : ¬ s.k.toNat < s.cfg.spb.toNat - 1 → s.unitGoesOn = false := s.unitGoesOn_eq_false_iff.2
  split_ifs with hk hb hl
  · exact .unitSample w hr (s.unitGoesOn_iff.2 hk) (.inl ⟨.inl hop, hw⟩)
  · rw [← bitn_succ_toNat _ hb, ← bitTone_eq]
    exact .modNextBit w hop hr (hunit hk) hw hb
  · rw [← hlast.2 hl]
    exact .modEnd w hop hr (hunit hk) hw hb (hlast.2 hl)
  · have hptr : (s.ptr + 1#10).toNat = s.ptr.toNat + 1 := ptr_succ_toNat s.ptr (by omega)
    have hinside : (s.ptr + 1#10).toNat < bufBytes := by
      rw [hptr, bufBytes]
      omega
    have hnext : next = s.bufByte (s.ptr + 1#10).toNat := by rw [hptr]
    rw [hnext]
    exact .modNextByte w hop hr (hunit hk) hw hb (mt hlast.1 hl) hinside

/-- Settles O15: a BIT goes on or completes. -/
theorem bitStepEmitsOneToneSample : Obligations.BitStepEmitsOneToneSample := by
  intro s w rest hop hr hw e
  refine (step_engine s rest).trans (EngineEffect.engineStep_eq ?_)
  split_ifs with hk
  · exact .unitSample w hr (s.unitGoesOn_iff.2 hk) (.inl ⟨.inr hop, hw⟩)
  · exact .unitEnd w hr (s.unitGoesOn_eq_false_iff.2 hk) (.inl ⟨hop, hw⟩)

/-- Settles O16: a SIL goes on or completes. -/
theorem silStepEmitsOneZeroSample : Obligations.SilStepEmitsOneZeroSample := by
  intro s rest hop hr e
  refine (step_engine s rest).trans (EngineEffect.engineStep_eq ?_)
  split_ifs with hk
  · exact .unitSample silence hr (s.unitGoesOn_iff.2 hk) (.inr ⟨hop, rfl⟩)
  · exact .unitEnd silence hr (s.unitGoesOn_eq_false_iff.2 hk) (.inr ⟨hop, rfl⟩)

/-- Settles O17: an ATTN goes on or completes, in either mode. -/
theorem attnStepCountsOneIteration : Obligations.AttnStepCountsOneIteration := by
  intro s rest hop hcount hr e
  refine (step_engine s rest).trans (EngineEffect.engineStep_eq ?_)
  have hlast : s.acnt - 1#24 = 0#24 ↔ s.acnt.toNat = 1 := pred_eq_zero_iff s.acnt hcount
  by_cases hz : s.azero = true
  · have he : e = { s with agenda := rest, received := 0x00000000#32 :: s.received,
                           scount := s.scount + 1#32 } := if_pos hz
    split_ifs with hone
    · rw [he, ← hlast.2 hone]
      exact .attnZeroEnd hop hz (hr hz) (hlast.2 hone)
    · rw [he]
      exact .attnZero hop hz (hr hz) (mt hlast.1 hone)
  · have he : e = { s with agenda := rest } := if_neg hz
    have hsilent : s.azero = false := Bool.eq_false_iff.2 hz
    split_ifs with hone
    · rw [he, ← hlast.2 hone]
      exact .attnSilentEnd hop hsilent (hlast.2 hone)
    · rw [he]
      exact .attnSilent hop hsilent (mt hlast.1 hone)

/-- Settles O19: the wait is a step that changes nothing, so any number of them is too. -/
theorem engineWaitsForTheSink : Obligations.EngineWaitsForTheSink := by
  intro n s hvalid hstall hagenda
  have hop : s.op ≠ .idle := by
    intro hidle
    rw [State.sValid, hidle] at hvalid
    cases hvalid
  have hstep : step s = .next s :=
    (step_nil s hagenda).trans (EngineEffect.wait hop hvalid hstall).engineStep_eq
  refine ⟨?_, s.status_busy.trans (s.busy_iff.2 hop)⟩
  induction n with
  | zero => exact runSteps_zero s
  | succ n ih => rw [runSteps_succ n s s hstep, ih]

end Sys2Proof.Machine
end

section
/-! PROOF. What a step leaves alone: the frame of an engine turn (43_command_engine.md), that of the
host's and the sink's turns (44_host_access.md), and what follows for the offered sample, the frame
buffer, DONE and ERR. -/

namespace Sys2Proof.Machine

/-! ### The frame of an engine turn -/

/-- What no engine turn changes: the host's registers but DONE and SCOUNT, the ports, the configuration, the
buffer and the turns to come. -/
structure EngineKeeps (s t : State) : Prop where
  ctrl : t.ctrl = s.ctrl
  err : t.err = s.err
  errcode : t.errcode = s.errcode
  cfg : t.cfg = s.cfg
  hbRdata : t.hbRdata = s.hbRdata
  sReady : t.sReady = s.sReady
  agenda : t.agenda = s.agenda
  mem : t.mem = s.mem
  draws : t.draws = s.draws

/-- Every engine turn keeps what is not the engine's. -/
theorem EngineEffect.keeps {s t : State} (h : EngineEffect s t) : EngineKeeps s t := by
  cases h with
  | rest | wait | emptyCommand | dispatchMod | dispatchBit | dispatchSil | dispatchAttn | unitSample
  | unitEnd | modNextBit | modNextByte | modEnd | attnSilent | attnSilentEnd | attnZero | attnZeroEnd =>
    constructor <;> rfl

/-- An engine turn keeps every buffer byte (R104). -/
theorem EngineEffect.bufByte {s t : State} (h : EngineEffect s t) (a : Nat) : t.bufByte a = s.bufByte a :=
  State.bufByte_congr h.keeps.mem h.keeps.draws a

/-- Only the dispatch of an ATTN latches a mode (R44). -/
theorem EngineEffect.azero_cases {s t : State} (h : EngineEffect s t) :
    t.azero = s.azero ∨ (s.op = .idle ∧ t.op = .attn) := by
  cases h with
  | dispatchAttn hcan => exact .inr ⟨(s.canDispatch_iff.1 hcan).1, rfl⟩
  | rest | wait | emptyCommand | dispatchMod | dispatchBit | dispatchSil | unitSample | unitEnd
  | modNextBit | modNextByte | modEnd | attnSilent | attnSilentEnd | attnZero | attnZeroEnd =>
    exact .inl rfl

/-- The step of a state whose next turn is the engine's has one of the engine's effects. -/
theorem step_engineEffect {s t : State} (hturn : s.nextTurn = .engine) (hstep : step s = .next t) :
    EngineEffect { s with agenda := s.laterTurns } t := by
  have heffect := step_effect s t hstep
  rw [hturn] at heffect
  cases heffect with
  | engine h => exact h

/-- Settles O18: a split over what an engine turn can do, for the frame, the queue and the mode. -/
theorem engineTurnFrame : Obligations.EngineTurnFrame := by
  intro s t hturn hstep
  have heffect := step_engineEffect hturn hstep
  have hkeeps := heffect.keeps
  refine ⟨hkeeps.ctrl, hkeeps.err, hkeeps.errcode, hkeeps.cfg, hkeeps.hbRdata, hkeeps.sReady, hkeeps.agenda,
    heffect.bufByte, ?_, heffect.azero_cases⟩
  obtain hkept | ⟨hcan, c, -, hq⟩ := heffect.queue_cases
  · exact .inl hkept
  · obtain ⟨hidle, -⟩ := (State.canDispatch_iff _).1 hcan
    have hqueue : s.queue = c :: t.queue := hq
    exact .inr ⟨hidle, by rw [hqueue, List.drop_one, List.tail_cons]⟩

/-! ### The host's and the sink's turns -/

/-- The engine record of R42 to R44. -/
structure EngineRecord where
  op : Op
  ptr : BitVec 10
  left : BitVec 10
  cur : Byte
  bitn : BitVec 3
  tone : BitVec 1
  k : BitVec 7
  acnt : BitVec 24
  azero : Bool

/-- The engine record of a state. -/
def State.record (s : State) : EngineRecord :=
  { op := s.op, ptr := s.ptr, left := s.left, cur := s.cur, bitn := s.bitn, tone := s.tone, k := s.k,
    acnt := s.acnt, azero := s.azero }

/-- Two records are the same when their fields are. -/
theorem State.record_eq_iff (s t : State) : t.record = s.record ↔
    t.op = s.op ∧ t.ptr = s.ptr ∧ t.left = s.left ∧ t.cur = s.cur ∧ t.bitn = s.bitn ∧ t.tone = s.tone ∧
      t.k = s.k ∧ t.acnt = s.acnt ∧ t.azero = s.azero := by
  simp only [State.record, EngineRecord.mk.injEq]

/-- The command that runs is a field of the record. -/
theorem State.op_of_record {s t : State} (h : t.record = s.record) : t.op = s.op :=
  congrArg EngineRecord.op h

/-- Neither a host access nor the sink touches the engine record (R178). -/
theorem TurnEffect.record_kept {s t : State} {u : Turn} (h : TurnEffect s u t) (hu : u ≠ .engine)
    (hreset : u ≠ .reset) : t.record = s.record := by
  cases h with
  | engine => exact absurd rfl hu
  | reset => exact absurd rfl hreset
  | refusedCmd | refusedBuf | stored => simp [State.record]
  | read | writeIgnored | writeCtrl | writeStatus | writeScount | queued | polled | pollAgain | sink => rfl

/-- They change the queue only by a legal CMD write, at its tail (R41, R173). -/
theorem TurnEffect.queue_cases {s t : State} {u : Turn} (h : TurnEffect s u t) (hu : u ≠ .engine)
    (hreset : u ≠ .reset) :
    t.queue = s.queue ∨ ∃ c, u = .write 3#10 c ∧ legalWord c = true ∧ t.queue = s.queue ++ [c] := by
  cases h with
  | engine => exact absurd rfl hu
  | reset => exact absurd rfl hreset
  | queued c hc => exact .inr ⟨c, rfl, hc, rfl⟩
  | refusedCmd | refusedBuf | stored => exact .inl (by simp)
  | read | writeIgnored | writeCtrl | writeStatus | writeScount | polled | pollAgain | sink => exact .inl rfl

/-- Settles O40: the record is kept, the stream is the engine's to move, and the queue grows by a CMD write. -/
theorem hostAndSinkLeaveTheEngineAlone : Obligations.HostAndSinkLeaveTheEngineAlone := by
  intro s t hstep hturn hreset
  have heffect := step_effect s t hstep
  obtain ⟨hop, hptr, hleft, hcur, hbitn, htone, hk, hacnt, hazero⟩ :=
    (State.record_eq_iff _ t).1 (heffect.record_kept hturn hreset)
  exact ⟨hop, hptr, hleft, hcur, hbitn, htone, hk, hacnt, hazero, heffect.stream_of_ne_engine hturn,
    heffect.queue_cases hturn hreset⟩

/-! ### The offered sample -/

/-- The offer depends on the record and the configuration only (R22). -/
theorem State.offer_congr {s t : State} (hrecord : t.record = s.record) (hcfg : t.cfg = s.cfg) :
    t.sValid = s.sValid ∧ t.sData = s.sData := by
  obtain ⟨hop, -, -, -, -, htone, hk, -, hazero⟩ := (State.record_eq_iff s t).1 hrecord
  simp only [State.sValid, State.sData, State.romRead, hop, htone, hk, hazero, hcfg, and_self]

/-- No turn changes the configuration (R14, R46). -/
theorem TurnEffect.cfg_kept {s t : State} {u : Turn} (h : TurnEffect s u t) : t.cfg = s.cfg := by
  cases h with
  | engine h => exact h.keeps.cfg
  | refusedCmd | refusedBuf | stored => simp
  | read | writeIgnored | writeCtrl | writeStatus | writeScount | queued | polled | pollAgain | sink
  | reset => rfl

/-- An idle engine offers nothing, so one that offers runs a command and cannot dispatch (R130, R151). -/
theorem State.not_canDispatch_of_sValid {s : State} (hvalid : s.sValid = true) : ¬ s.canDispatch = true := by
  intro hcan
  obtain ⟨hop, -⟩ := s.canDispatch_iff.1 hcan
  rw [State.sValid, hop] at hvalid
  cases hvalid

/-- An offer that the sink does not accept is a wait: the engine turn changes nothing (R129). -/
theorem EngineEffect.eq_of_stalled {s t : State} (h : EngineEffect s t) (hvalid : s.sValid = true)
    (hstall : s.sReady = false) : t = s := by
  have hno := State.not_canDispatch_of_sValid hvalid
  cases h with
  | rest | wait => rfl
  | emptyCommand hcan | dispatchMod hcan | dispatchBit hcan | dispatchSil hcan | dispatchAttn hcan =>
    exact absurd hcan hno
  | unitSample _ hr | unitEnd _ hr | modNextBit _ _ hr | modNextByte _ _ hr | modEnd _ _ hr | attnZero _ _ hr
  | attnZeroEnd _ _ hr => cases hstall.symm.trans hr
  | attnSilent hop hz | attnSilentEnd hop hz => simp [State.sValid, hop, hz] at hvalid

/-- Settles O21: the engine waits with its offer, and no other turn reaches the record. -/
theorem offerIsHeldUntilTheTransfer : Obligations.OfferIsHeldUntilTheTransfer := by
  intro s t hvalid hstep hreset hno
  by_cases hturn : s.nextTurn = .engine
  · have hstall : s.sReady = false := Bool.eq_false_iff.2 fun hr => hno ⟨hturn, hr⟩
    rw [(step_engineEffect hturn hstep).eq_of_stalled hvalid hstall]
    exact ⟨hvalid, rfl⟩
  · have heffect := step_effect s t hstep
    obtain ⟨hv, hd⟩ := State.offer_congr (heffect.record_kept hturn hreset) heffect.cfg_kept
    exact ⟨hv.trans hvalid, hd⟩

/-! ### The frame buffer -/

/-- The buffer's bytes change only by reset or by a write of the BUF window while it is unlocked (R66, R175). -/
theorem TurnEffect.bufByte_cases {s t : State} {u : Turn} (h : TurnEffect s u t) :
    (∀ b, t.bufByte b = s.bufByte b) ∨ u = .reset ∨
      (s.locked = false ∧ ∃ a d, u = .write a d ∧ a.toNat / 128 = 4) := by
  cases h with
  | engine h => exact .inl h.bufByte
  | reset => exact .inr (.inl rfl)
  | stored a j d ha hu =>
    have := j.isLt
    exact .inr (.inr ⟨hu, a, d, rfl, by omega⟩)
  | refusedCmd | refusedBuf => exact .inl (by simp)
  | read | writeIgnored | writeCtrl | writeStatus | writeScount | queued | polled | pollAgain | sink =>
    exact .inl fun _ => rfl

/-- Settles O33: no turn writes the configuration, and a buffer that changes was reset, or unlocked and
written. -/
theorem tableIsFixedAndBufferChangesOnlyByHostOrReset :
    Obligations.TableIsFixedAndBufferChangesOnlyByHostOrReset := by
  intro s t hstep
  have heffect := step_effect s t hstep
  refine ⟨heffect.cfg_kept, fun hreset hwrite => ?_, fun hreset hlocked => ?_⟩
  · obtain hkept | hr | ⟨-, a, d, hturn, ha⟩ := heffect.bufByte_cases
    · exact hkept
    · exact absurd hr hreset
    · exact absurd ha (hwrite a d hturn)
  · obtain hkept | hr | ⟨hunlocked, -⟩ := heffect.bufByte_cases
    · exact hkept
    · exact absurd hr hreset
    · cases hlocked.symm.trans hunlocked

/-! ### DONE -/

/-- No command waits, as a comparison of lists. -/
theorem State.qempty_eq (s : State) : s.qempty = decide (s.queue = []) := by
  simp [State.qempty]

/-- What an engine turn does to DONE: it leaves it, or a command completes, and then DONE is set if no command
waits (R153). -/
theorem EngineEffect.done_cases {s t : State} (h : EngineEffect s t) :
    (t.done = s.done ∧ (t.op = .idle → s.op = .idle)) ∨
      (t.op = .idle ∧ s.locked = true ∧ t.done = (s.done || decide (t.queue = []))) := by
  have hrunning (hop : s.op ≠ .idle) : s.locked = true := s.locked_iff.2 (.inl (s.busy_iff.2 hop))
  cases h with
  | rest hop => exact .inl ⟨rfl, fun _ => hop⟩
  | wait => exact .inl ⟨rfl, id⟩
  | emptyCommand _ c q i hq =>
    exact .inr ⟨rfl, s.locked_iff.2 (.inr (by simp [hq])), by simp⟩
  | dispatchMod | dispatchBit | dispatchSil | dispatchAttn => exact .inl ⟨rfl, by simp⟩
  | unitSample | modNextBit | modNextByte | attnSilent | attnZero => exact .inl ⟨rfl, id⟩
  | unitEnd w _ _ hw =>
    have hop : s.op ≠ .idle := by obtain ⟨hop, -⟩ | ⟨hop, -⟩ := hw <;> simp [hop]
    exact .inr ⟨rfl, hrunning hop, congrArg (s.done || ·) s.qempty_eq⟩
  | modEnd _ hop | attnSilentEnd hop | attnZeroEnd hop =>
    exact .inr ⟨rfl, hrunning (by simp [hop]), congrArg (s.done || ·) s.qempty_eq⟩

/-- What the other turns do to DONE: a STATUS write of bit 3 and reset clear it (R31, R172). -/
theorem TurnEffect.done_cases {s t : State} {u : Turn} (h : TurnEffect s u t) (hu : u ≠ .engine) :
    t.done = s.done ∨
      (t.done = false ∧ (u = .reset ∨ ∃ d, u = .write 2#10 d ∧ d.getLsbD 3 = true)) := by
  cases h with
  | engine => exact absurd rfl hu
  | reset => exact .inr ⟨rfl, .inl rfl⟩
  | writeStatus d =>
    cases hbit : d.getLsbD 3 with
    | false => exact .inl (by simp)
    | true => exact .inr ⟨by simp, .inr ⟨d, rfl, hbit⟩⟩
  | refusedCmd | refusedBuf | stored => exact .inl (by simp)
  | read | writeIgnored | writeCtrl | writeScount | queued | polled | pollAgain | sink => exact .inl rfl

/-- Settles O38: on an engine turn by what a completion does to DONE, on any other by what a write or reset
does. -/
theorem doneIsSetByTheLastCompletion : Obligations.DoneIsSetByTheLastCompletion := by
  intro s t hstep
  by_cases hturn : s.nextTurn = .engine
  · obtain ⟨hdone, hidle⟩ | ⟨hidle, hlocked, hdone⟩ := (step_engineEffect hturn hstep).done_cases
    · have hkept : t.done = s.done := hdone
      refine ⟨fun hs ht => ?_, fun hrun hop => absurd (hidle hop) hrun, fun hs ht => ?_⟩
      · cases (hs.symm.trans hkept.symm).trans ht
      · cases (hs.symm.trans hkept.symm).trans ht
    · have hset : t.done = (s.done || decide (t.queue = [])) := hdone
      refine ⟨fun hs ht => ⟨hturn, hidle, ?_, hlocked⟩, fun _ _ _ => hset, fun hs ht => ?_⟩
      · rw [ht, hs, Bool.false_or] at hset
        exact of_decide_eq_true hset.symm
      · rw [ht, hs, Bool.true_or] at hset
        cases hset
  · have heffect := step_effect s t hstep
    refine ⟨fun hs ht => ?_, fun hrun hop hreset => ?_, fun hs ht => ?_⟩
    · obtain hkept | ⟨hclear, -⟩ := heffect.done_cases hturn
      · cases (hs.symm.trans hkept.symm).trans ht
      · cases hclear.symm.trans ht
    · exact absurd ((State.op_of_record (heffect.record_kept hturn hreset)).symm.trans hop) hrun
    · obtain hkept | ⟨-, hwhy⟩ := heffect.done_cases hturn
      · cases (hs.symm.trans hkept.symm).trans ht
      · exact hwhy

/-! ### CTRL and the errors -/

/-- A running command takes the same step under any CTRL, ERR and ERRCODE: none of its effects asks for them
(R154, R204). -/
theorem EngineEffect.with_ctrl_err {s t : State} (h : EngineEffect s t) (hop : s.op ≠ .idle) (c : BitVec 4)
    (e : Bool) (x : BitVec 4) :
    EngineEffect { s with ctrl := c, err := e, errcode := x } { t with ctrl := c, err := e, errcode := x } := by
  cases h with
  | rest hidle => exact absurd hidle hop
  | emptyCommand hcan | dispatchMod hcan | dispatchBit hcan | dispatchSil hcan | dispatchAttn hcan =>
    exact absurd (s.canDispatch_iff.1 hcan).1 hop
  | wait hop hv hr => exact .wait hop hv hr
  | unitSample w hr hk hw => exact .unitSample w hr hk hw
  | unitEnd w hr hk hw => exact .unitEnd w hr hk hw
  | modNextBit w hop hr hk hw hb => exact .modNextBit w hop hr hk hw hb
  | modNextByte w hop hr hk hw hb hl hp => exact .modNextByte w hop hr hk hw hb hl hp
  | modEnd w hop hr hk hw hb hl => exact .modEnd w hop hr hk hw hb hl
  | attnSilent hop hz ha => exact .attnSilent hop hz ha
  | attnSilentEnd hop hz ha => exact .attnSilentEnd hop hz ha
  | attnZero hop hz hr ha => exact .attnZero hop hz hr ha
  | attnZeroEnd hop hz hr ha => exact .attnZeroEnd hop hz hr ha

/-- Settles O39: the running command's effect is an effect of the other state too. -/
theorem runningCommandIgnoresRunAndErr : Obligations.RunningCommandIgnoresRunAndErr := by
  intro s t c e x hop hturn hstep
  have heffect := (step_engineEffect hturn hstep).with_ctrl_err hop c e x
  have hturn' : ({ s with ctrl := c, err := e, errcode := x } : State).nextTurn = .engine := hturn
  rw [step_eq, hturn']
  exact heffect.engineStep_eq

/-- The raise of an error latches its code when none is latched (R202). -/
theorem State.raise_errcode_of_clear {s : State} (e : CmdError) (herr : s.err = false) :
    (s.raise e).errcode = e.code := by
  rw [State.raise_errcode, herr, if_neg Bool.false_ne_true]

/-- A turn that raises ERR is a refused CMD write or a refused BUF write, which latch their codes (R201). -/
theorem TurnEffect.err_raised {s t : State} {u : Turn} (h : TurnEffect s u t) (hs : s.err = false)
    (ht : t.err = true) :
    (∃ c e, u = .write 3#10 c ∧ t.errcode = e.code ∧
      (decode c = .error e ∨ legalWord c = true ∧ s.queue.length = 16 ∧ e = .cmdqOverflow)) ∨
    (∃ a d, u = .write a d ∧ a.toNat / 128 = 4 ∧ s.locked = true ∧ t.errcode = CmdError.bufLocked.code) := by
  cases h with
  | engine h => cases (hs.symm.trans h.keeps.err.symm).trans ht
  | reset => cases ht
  | writeStatus d =>
    rw [hs, Bool.false_and] at ht
    cases ht
  | refusedCmd c e he => exact .inl ⟨c, e, rfl, State.raise_errcode_of_clear e hs, he⟩
  | refusedBuf a j d ha hl =>
    have := j.isLt
    exact .inr ⟨a, d, rfl, by omega, hl, State.raise_errcode_of_clear _ hs⟩
  | read | writeIgnored | writeCtrl | writeScount | queued | stored | polled | pollAgain | sink =>
    cases hs.symm.trans ht

/-- Settles O41: the two refused writes, and the codes that the decoder can give. -/
theorem onlyRefusedAccessesLatchErrors : Obligations.OnlyRefusedAccessesLatchErrors := by
  intro s t hstep hs ht
  obtain ⟨c, e, hturn, hcode, hwhy⟩ | hbuf := (step_effect s t hstep).err_raised hs ht
  · refine .inl ⟨c, hturn, ?_⟩
    obtain hd | ⟨hlegal, hfull, rfl⟩ := hwhy
    · obtain rfl | rfl | rfl := decode_error_cases c e hd
      · exact .inl ⟨hd, hcode⟩
      · exact .inr (.inl ⟨hd, hcode⟩)
      · exact .inr (.inr (.inl ⟨hd, hcode⟩))
    · exact .inr (.inr (.inr ⟨hlegal, hfull, hcode⟩))
  · exact .inr hbuf

end Sys2Proof.Machine
end

section
/-! PROOF. The invariant of every run (10_state.md R43, 43_command_engine.md R159): it holds at reset,
every step of every agent keeps it, and in it no step is a stop. -/

namespace Sys2Proof.Machine

/-! ### The engine record's ranges, command by command -/

theorem State.engineInv_of_idle {s : State} (hop : s.op = .idle) : s.engineInv := by
  rw [State.engineInv, hop]
  trivial

theorem State.engineInv_of_mod {s : State} (hop : s.op = .mod) : s.engineInv ↔
    1 ≤ s.left.toNat ∧ s.ptr.toNat + s.left.toNat ≤ bufBytes ∧ s.k.toNat < s.cfg.spb.toNat ∧
      s.cur = s.bufByte s.ptr.toNat ∧ s.tone = bitTone s.cur s.bitn := by
  rw [State.engineInv, hop]

theorem State.engineInv_of_unit {s : State} (hop : s.op = .bit ∨ s.op = .sil) :
    s.engineInv ↔ s.k.toNat < s.cfg.spb.toNat := by
  obtain hop | hop := hop <;> rw [State.engineInv, hop]

theorem State.engineInv_of_attn {s : State} (hop : s.op = .attn) :
    s.engineInv ↔ 1 ≤ s.acnt.toNat ∧ s.acnt.toNat ≤ 11245500 := by
  rw [State.engineInv, hop]

/-- The sample index starts inside the unit. -/
theorem zero_lt_spb (b : SamplesPerBit) : (0#7).toNat < b.toNat := by
  have := b.toNat_bounds
  rw [BitVec.toNat_ofNat]
  omega

/-- A unit that goes on has its next sample index inside it (R159). -/
theorem State.k_succ_toNat {s : State} (hk : s.unitGoesOn = true) :
    (s.k + 1#7).toNat = s.k.toNat + 1 ∧ s.k.toNat + 1 < s.cfg.spb.toNat := by
  have hlt := s.unitGoesOn_iff.1 hk
  have hspb := s.cfg.spb.toNat_bounds
  rw [BitVec.toNat_add, BitVec.toNat_ofNat]
  omega

/-- The first address of a MOD keeps its number in the wider pointer (R85). -/
theorem modPtr_toNat (base : BitVec 9) : (modPtr base).toNat = base.toNat := by
  have := base.isLt
  rw [modPtr, BitVec.toNat_setWidth]
  omega

/-- A command with some operand other than 0 has at least 1. -/
theorem one_le_toNat {w : Nat} {x : BitVec w} (h : x ≠ 0#w) : 1 ≤ x.toNat := by
  have hne : x.toNat ≠ 0 := fun hzero => h (BitVec.eq_of_toNat_eq (by simpa using hzero))
  omega

/-- A step within the unit keeps the ranges of MOD, BIT and SIL. -/
theorem State.engineInv_next_sample {s : State} (w : Word) (hs : s.engineInv) (hk : s.unitGoesOn = true)
    (hop : s.op = .mod ∨ s.op = .bit ∨ s.op = .sil) :
    ({ s.emit w with k := s.k + 1#7 } : State).engineInv := by
  obtain ⟨hnumber, hlt⟩ := State.k_succ_toNat hk
  rw [← hnumber] at hlt
  obtain hop | hop := hop
  · obtain ⟨hleft, hrange, -, hcur, htone⟩ := (State.engineInv_of_mod hop).1 hs
    exact (State.engineInv_of_mod (by exact hop)).2 ⟨hleft, hrange, hlt, hcur, htone⟩
  · exact (State.engineInv_of_unit (by exact hop)).2 hlt

/-- Every engine turn keeps the record's ranges: a dispatch sets them up from a legal word, and a step within
them stays within them (R159). -/
theorem EngineEffect.engineInv {s t : State} (h : EngineEffect s t) (hs : s.engineInv) : t.engineInv := by
  cases h with
  | rest | wait => exact hs
  | emptyCommand | modEnd | attnSilentEnd | attnZeroEnd => exact State.engineInv_of_idle rfl
  | unitEnd => exact State.engineInv_of_idle rfl
  | dispatchMod _ c q base len _ hd hl =>
    obtain ⟨-, hwf⟩ := decodedWordIsItsEncoding _ _ hd
    refine (State.engineInv_of_mod rfl).2 ⟨one_le_toNat hl, ?_, zero_lt_spb _, ?_, rfl⟩ <;>
      simp only [modPtr_toNat]
    · exact (wellFormed_mod_iff base len).1 hwf
    · rfl
  | dispatchBit => exact (State.engineInv_of_unit (.inl rfl)).2 (zero_lt_spb _)
  | dispatchSil => exact (State.engineInv_of_unit (.inr rfl)).2 (zero_lt_spb _)
  | dispatchAttn _ c q d _ _ hz =>
    have hseconds := one_le_toNat hz
    have hd := d.isLt
    refine (State.engineInv_of_attn rfl).2 ?_
    simp only [attnCount_toNat]
    omega
  | unitSample w _ hk hw => exact State.engineInv_next_sample w hs hk (by tauto)
  | modNextBit w hop =>
    obtain ⟨hleft, hrange, -, hcur, -⟩ := (State.engineInv_of_mod hop).1 hs
    exact (State.engineInv_of_mod (by exact hop)).2 ⟨hleft, hrange, zero_lt_spb _, hcur, rfl⟩
  | modNextByte w hop _ _ _ _ hl =>
    obtain ⟨hleft, hrange, -⟩ := (State.engineInv_of_mod hop).1 hs
    have hmore := one_le_toNat hl
    rw [toNat_pred _ hleft] at hmore
    refine (State.engineInv_of_mod (by exact hop)).2 ⟨?_, ?_, zero_lt_spb _, rfl, rfl⟩ <;>
      simp only [toNat_pred _ hleft]
    · exact hmore
    · rw [bufBytes] at hrange ⊢
      rw [ptr_succ_toNat _ (by omega)]
      omega
  | attnSilent hop _ ha | attnZero hop _ _ ha =>
    obtain ⟨hlow, hhigh⟩ := (State.engineInv_of_attn hop).1 hs
    have hmore := one_le_toNat ha
    have hpred := toNat_pred s.acnt hlow
    refine (State.engineInv_of_attn (by exact hop)).2 ?_
    simp only
    omega

/-! ### The invariant -/

/-- Settles O30: at reset the queue and the buffer's list are empty and the engine is idle. -/
theorem invHoldsAtReset : Obligations.InvHoldsAtReset where
  tableWf := by decide
  memoryWf := Memory.wf_nil
  queueBound := Nat.zero_le _
  queueLegal := fun _ hc => absurd hc List.not_mem_nil
  errorCode := ⟨Nat.zero_le _, iff_of_true rfl rfl⟩
  engine := State.engineInv_of_idle rfl

/-- The invariant does not speak of the turns to come. -/
theorem Inv.with_agenda {s : State} (h : Inv s) (rest : List Turn) : Inv { s with agenda := rest } :=
  ⟨h.tableWf, h.memoryWf, h.queueBound, h.queueLegal, h.errorCode, h.engine⟩

/-- The engine's turns keep the invariant. -/
theorem EngineEffect.inv {s t : State} (h : EngineEffect s t) (hs : Inv s) : Inv t where
  tableWf := by rw [h.keeps.cfg]; exact hs.tableWf
  memoryWf := by rw [h.keeps.mem]; exact hs.memoryWf
  queueBound := by
    have hbound := hs.queueBound
    obtain hq | ⟨-, c, -, hq⟩ := h.queue_cases
    · rw [hq]
      exact hbound
    · rw [hq, List.length_cons] at hbound
      omega
  queueLegal := fun c hc => hs.queueLegal c <| by
    obtain hq | ⟨-, c', -, hq⟩ := h.queue_cases
    · rwa [← hq]
    · rw [hq]
      exact List.mem_cons_of_mem c' hc
  errorCode := by rw [h.keeps.errcode, h.keeps.err]; exact hs.errorCode
  engine := h.engineInv hs.engine

/-- The ranges of the record speak of the record, the configuration and the buffer's bytes. -/
theorem State.engineInv_congr {s t : State} (hrecord : t.record = s.record) (hcfg : t.cfg = s.cfg)
    (hbytes : ∀ a, t.bufByte a = s.bufByte a) (hs : s.engineInv) : t.engineInv := by
  obtain ⟨hop, hptr, hleft, hcur, hbitn, htone, hk, hacnt, -⟩ := (State.record_eq_iff s t).1 hrecord
  simpa only [State.engineInv, hop, hptr, hleft, hcur, hbitn, htone, hk, hacnt, hcfg, hbytes] using hs

/-- A host access or the sink's turn keeps the record's ranges: while a command runs the buffer is locked
(R66). -/
theorem TurnEffect.engineInv {s t : State} {u : Turn} (h : TurnEffect s u t) (hu : u ≠ .engine)
    (hreset : u ≠ .reset) (hs : s.engineInv) : t.engineInv := by
  have hrecord := h.record_kept hu hreset
  obtain hbytes | hr | ⟨hunlocked, -⟩ := h.bufByte_cases
  · exact State.engineInv_congr hrecord h.cfg_kept hbytes hs
  · exact absurd hr hreset
  · have hidle : s.op = .idle := by
      by_contra hrun
      cases hunlocked.symm.trans (s.locked_iff.2 (.inl (s.busy_iff.2 hrun)))
    exact State.engineInv_of_idle ((State.op_of_record hrecord).trans hidle)

/-- The codes of R201 are 1 to 5. -/
theorem code_bounds (e : CmdError) : e.code.toNat ≤ 5 ∧ e.code ≠ 0#4 := by
  cases e <;> decide

/-- A raise keeps the error register's form: the latched code is one of R201's (R202). -/
theorem State.errorCode_raise {s : State} (e : CmdError)
    (hs : s.errcode.toNat ≤ 5 ∧ (s.err = false ↔ s.errcode = 0#4)) :
    (s.raise e).errcode.toNat ≤ 5 ∧ ((s.raise e).err = false ↔ (s.raise e).errcode = 0#4) := by
  obtain ⟨-, hraise⟩ | ⟨-, hraise⟩ := s.raise_cases e <;> rw [hraise]
  · exact hs
  · obtain ⟨hbound, hne⟩ := code_bounds e
    exact ⟨hbound, iff_of_false Bool.noConfusion hne⟩

/-- Every turn keeps the error register's form (R28, R202). -/
theorem TurnEffect.errorCode {s t : State} {u : Turn} (h : TurnEffect s u t)
    (hs : s.errcode.toNat ≤ 5 ∧ (s.err = false ↔ s.errcode = 0#4)) :
    t.errcode.toNat ≤ 5 ∧ (t.err = false ↔ t.errcode = 0#4) := by
  cases h with
  | engine h => rw [h.keeps.errcode, h.keeps.err]; exact hs
  | reset => exact ⟨Nat.zero_le _, iff_of_true rfl rfl⟩
  | writeStatus d =>
    cases hbit : d.getLsbD 4 with
    | false => simpa using hs
    | true => simp
  | refusedCmd c e => exact State.errorCode_raise e hs
  | refusedBuf => exact State.errorCode_raise _ hs
  | read | writeIgnored | writeCtrl | writeScount | queued | stored | polled | pollAgain | sink => exact hs

/-- Every turn keeps the buffer's canonical form. -/
theorem TurnEffect.memoryWf {s t : State} {u : Turn} (h : TurnEffect s u t) (hs : Memory.wf s.mem = true) :
    Memory.wf t.mem = true := by
  cases h with
  | engine h => rw [h.keeps.mem]; exact hs
  | reset => exact Memory.wf_nil
  | stored _ j d => exact storeWord_wf j d s hs
  | refusedCmd | refusedBuf => simpa using hs
  | read | writeIgnored | writeCtrl | writeStatus | writeScount | queued | polled | pollAgain | sink => exact hs

/-- Every turn keeps the queue at 16 legal words at most (R41, R173). -/
theorem TurnEffect.queue_inv {s t : State} {u : Turn} (h : TurnEffect s u t) (hs : Inv s) :
    t.queue.length ≤ cmdqDepth ∧ ∀ c ∈ t.queue, legalWord c = true := by
  cases h with
  | engine h => exact ⟨(h.inv hs).queueBound, (h.inv hs).queueLegal⟩
  | reset => exact ⟨Nat.zero_le _, fun _ hc => absurd hc List.not_mem_nil⟩
  | queued c hc hq =>
    have hbound := hs.queueBound
    rw [cmdqDepth] at hbound
    refine ⟨?_, fun c' hc' => ?_⟩
    · rw [List.length_append, List.length_singleton, cmdqDepth]
      omega
    · obtain hold | hnew := List.mem_append.1 hc'
      · exact hs.queueLegal c' hold
      · rw [List.mem_singleton.1 hnew]
        exact hc
  | refusedCmd | refusedBuf | stored => simpa using ⟨hs.queueBound, hs.queueLegal⟩
  | read | writeIgnored | writeCtrl | writeStatus | writeScount | polled | pollAgain | sink =>
    exact ⟨hs.queueBound, hs.queueLegal⟩

/-- Every turn keeps the record's ranges. -/
theorem TurnEffect.engineInv_of_inv {s t : State} {u : Turn} (h : TurnEffect s u t) (hs : Inv s) :
    t.engineInv := by
  by_cases hu : u = .engine
  · subst hu
    cases h with
    | engine h => exact h.engineInv hs.engine
  · by_cases hreset : u = .reset
    · subst hreset
      cases h
      exact State.engineInv_of_idle rfl
    · exact h.engineInv hu hreset hs.engine

/-- Settles O31: every turn of every agent keeps each part of the invariant. -/
theorem everyStepKeepsInv : Obligations.EveryStepKeepsInv := by
  intro s t hs hstep
  have heffect := step_effect s t hstep
  have hinv := hs.with_agenda s.laterTurns
  obtain ⟨hbound, hlegal⟩ := heffect.queue_inv hinv
  exact {
    tableWf := by rw [heffect.cfg_kept]; exact hs.tableWf
    memoryWf := heffect.memoryWf hs.memoryWf
    queueBound := hbound
    queueLegal := hlegal
    errorCode := heffect.errorCode hs.errorCode
    engine := heffect.engineInv_of_inv hinv }

/-! ### No stop -/

/-- In the invariant a running MOD on an accepting sink has an effect: its sample is in the table, and a next
byte in the buffer (R70, R159). -/
theorem Inv.mod_goes_on {s : State} (hs : Inv s) (hop : s.op = .mod) (hr : s.sReady = true) :
    ∃ t, EngineEffect s t := by
  obtain ⟨hleft, hrange, hk, -⟩ := (State.engineInv_of_mod hop).1 hs.engine
  obtain ⟨w, hw, -⟩ := s.romRead_wf hs.tableWf s.tone s.k hk
  cases hgo : s.unitGoesOn with
  | true => exact ⟨_, .unitSample w hr hgo (.inl ⟨.inl hop, hw⟩)⟩
  | false =>
    by_cases hb : s.bitn.toNat < 7
    · exact ⟨_, .modNextBit w hop hr hgo hw hb⟩
    · by_cases hl : s.left - 1#10 = 0#10
      · exact ⟨_, .modEnd w hop hr hgo hw hb hl⟩
      · have hmore := one_le_toNat hl
        rw [toNat_pred _ hleft] at hmore
        rw [bufBytes] at hrange
        refine ⟨_, .modNextByte w hop hr hgo hw hb hl ?_⟩
        rw [ptr_succ_toNat _ (by omega), bufBytes]
        omega

/-- In the invariant the engine can always step: each queued word decodes, and a running command's reads are
inside the table and the buffer (R70, R159, R200). -/
theorem Inv.engine_goes_on {s : State} (hs : Inv s) : ∃ t, engineStep s = .next t := by
  by_cases hstall : s.op ≠ .idle ∧ s.sValid = true ∧ s.sReady = false
  · obtain ⟨hop, hv, hr⟩ := hstall
    exact ⟨s, (EngineEffect.wait hop hv hr).engineStep_eq⟩
  have hready (hop : s.op ≠ .idle) (hv : s.sValid = true) : s.sReady = true := by
    by_contra hr
    exact hstall ⟨hop, hv, Bool.eq_false_iff.2 hr⟩
  cases hop : s.op with
  | idle =>
    cases hcan : s.canDispatch with
    | false => exact ⟨s, engineStep_of_rest hop hcan⟩
    | true =>
      obtain ⟨-, -, -, hne⟩ := s.canDispatch_iff.1 hcan
      obtain ⟨c, q, hq⟩ := List.exists_cons_of_ne_nil hne
      obtain ⟨i, hd⟩ := (legalWord_iff c).1 (hs.queueLegal c (by rw [hq]; exact List.mem_cons_self))
      rw [engineStep_of_canDispatch hcan hq hd]
      exact exec_goes_on i _
  | mod =>
    have hr : s.sReady = true := hready (by simp [hop]) (by simp [State.sValid, hop])
    obtain ⟨t, heffect⟩ := hs.mod_goes_on hop hr
    exact ⟨t, heffect.engineStep_eq⟩
  | bit =>
    have hr : s.sReady = true := hready (by simp [hop]) (by simp [State.sValid, hop])
    obtain ⟨w, hw, -⟩ :=
      s.romRead_wf hs.tableWf s.tone s.k ((State.engineInv_of_unit (.inl hop)).1 hs.engine)
    cases hgo : s.unitGoesOn with
    | true => exact ⟨_, (EngineEffect.unitSample w hr hgo (.inl ⟨.inr hop, hw⟩)).engineStep_eq⟩
    | false => exact ⟨_, (EngineEffect.unitEnd w hr hgo (.inl ⟨hop, hw⟩)).engineStep_eq⟩
  | sil =>
    have hr : s.sReady = true := hready (by simp [hop]) (by simp [State.sValid, hop])
    cases hgo : s.unitGoesOn with
    | true => exact ⟨_, (EngineEffect.unitSample silence hr hgo (.inr ⟨hop, rfl⟩)).engineStep_eq⟩
    | false => exact ⟨_, (EngineEffect.unitEnd silence hr hgo (.inr ⟨hop, rfl⟩)).engineStep_eq⟩
  | attn =>
    have hr (hz : s.azero = true) : s.sReady = true := hready (by simp [hop]) (by simp [State.sValid, hop, hz])
    rw [engineStep_of_attn hop hr, stepAttn]
    split_ifs <;> exact ⟨_, rfl⟩

/-- Settles O32: the engine goes on in the invariant, and every other agent always does. -/
theorem invStatesNeverStop : Obligations.InvStatesNeverStop := by
  intro s hs
  rw [step_eq]
  by_cases hturn : s.nextTurn = .engine
  · rw [hturn]
    exact (hs.with_agenda s.laterTurns).engine_goes_on
  · exact takeTurn_goes_on _ _ hturn

/-! ### The transfer -/

/-- An engine turn with an offer and an accepting sink transfers a sample: every effect that transfers none is
one of an engine that offers none, or of a stalled sink (R129). -/
theorem EngineEffect.stream_of_accepted {s t : State} (h : EngineEffect s t) (hvalid : s.sValid = true)
    (hready : s.sReady = true) : ∃ v, t.received = v :: s.received := by
  have hno := State.not_canDispatch_of_sValid hvalid
  cases h with
  | rest hop => rw [State.sValid, hop] at hvalid; cases hvalid
  | wait _ _ hr => cases hready.symm.trans hr
  | emptyCommand hcan | dispatchMod hcan | dispatchBit hcan | dispatchSil hcan | dispatchAttn hcan =>
    exact absurd hcan hno
  | attnSilent hop hz | attnSilentEnd hop hz => simp [State.sValid, hop, hz] at hvalid
  | unitSample w | unitEnd w | modNextBit w | modNextByte w | modEnd w => exact ⟨w, rfl⟩
  | attnZero | attnZeroEnd => exact ⟨silence, rfl⟩

/-- Settles O20: the engine's step goes on, transfers a sample, and that one is the offer. -/
theorem transferDeliversTheOfferedSample : Obligations.TransferDeliversTheOfferedSample := by
  intro s rest hs hvalid hready
  obtain ⟨t, hstep⟩ := (hs.with_agenda rest).engine_goes_on
  have heffect := engineStep_effect _ t hstep
  obtain ⟨v, hreceived⟩ := heffect.stream_of_accepted hvalid hready
  have hstream : t.stream = s.stream ++ [v] := by simp [State.stream, hreceived]
  refine ⟨v, t, heffect.sData_of_added hstream, (step_engine s rest).trans hstep, hstream, ?_⟩
  obtain ⟨hcount, -⟩ := heffect.countedTransfer.scount_toNat
  rw [hcount, hstream]
  simp [State.stream]

end Sys2Proof.Machine
end

section
/-! PROOF. The engine at rest (20_memory.md section 7, 43_command_engine.md R157): which turns leave it
idle and its queue alone, for any number of steps, and which three writes of the host end its rest. -/

namespace Sys2Proof.Machine

/-! ### Quiescence -/

/-- A quiescent engine may not dispatch (R151, R157). -/
theorem State.not_canDispatch_of_quiescent {s : State} (h : s.quiescent = true) : ¬ s.canDispatch = true := by
  rw [s.canDispatch_iff]
  rintro ⟨-, hrun, herr, hne⟩
  obtain ⟨-, hq | hr | he⟩ := s.quiescent_iff.1 h
  · exact hne hq
  · cases hrun.symm.trans hr
  · cases herr.symm.trans he

/-- An idle engine that is not quiescent may dispatch: the other three conditions of R151 hold. -/
theorem State.may_dispatch_of_not_quiescent {s : State} (hop : s.op = .idle) (h : s.quiescent = false) :
    s.run = true ∧ s.err = false ∧ s.queue ≠ [] := by
  have hno : ¬ (s.queue = [] ∨ s.run = false ∨ s.err = true) := fun hwhy => by
    cases h.symm.trans (s.quiescent_iff.2 ⟨hop, hwhy⟩)
  rw [not_or, not_or] at hno
  obtain ⟨hq, hr, he⟩ := hno
  exact ⟨by simpa using hr, by simpa using he, hq⟩

/-- A quiescent engine's step changes nothing (log 12). -/
theorem engineStep_of_quiescent {s : State} (h : s.quiescent = true) : engineStep s = .next s :=
  engineStep_of_rest (s.quiescent_iff.1 h).1 (Bool.eq_false_iff.2 (State.not_canDispatch_of_quiescent h))

/-- The engine's effect on a quiescent state is none. -/
theorem EngineEffect.eq_of_quiescent {s t : State} (h : EngineEffect s t) (hs : s.quiescent = true) :
    t = s := by
  cases h.engineStep_eq.symm.trans (engineStep_of_quiescent hs)
  rfl

/-- Only the three host writes of R157 end quiescence. -/
theorem TurnEffect.quiescence_ends {s t : State} {u : Turn} (h : TurnEffect s u t) (hs : s.quiescent = true)
    (ht : t.quiescent = false) :
    ∃ d, (u = .write 3#10 d ∧ s.ctrl.getLsbD 0 = true ∧ s.err = false) ∨
      (u = .write 1#10 d ∧ d.getLsbD 0 = true) ∨
      (u = .write 2#10 d ∧ s.err = true ∧ d.getLsbD 4 = true) := by
  obtain ⟨hidle, hwhy⟩ := s.quiescent_iff.1 hs
  cases h with
  | engine h =>
    rw [h.eq_of_quiescent hs] at ht
    cases hs.symm.trans ht
  | writeCtrl d =>
    obtain ⟨hrun, -⟩ := State.may_dispatch_of_not_quiescent (by exact hidle) ht
    exact ⟨d, .inr (.inl ⟨rfl, by simpa [State.run] using hrun⟩)⟩
  | writeStatus d =>
    obtain ⟨hrun, herr, hne⟩ := State.may_dispatch_of_not_quiescent (by exact hidle) ht
    obtain hq | hr | he := hwhy
    · exact absurd hq hne
    · cases hr.symm.trans hrun
    · exact ⟨d, .inr (.inr ⟨rfl, he, by simpa [he] using herr⟩)⟩
  | queued c =>
    obtain ⟨hrun, herr, -⟩ := State.may_dispatch_of_not_quiescent (by exact hidle) ht
    exact ⟨c, .inl ⟨rfl, hrun, herr⟩⟩
  | refusedCmd | refusedBuf =>
    obtain ⟨-, herr, -⟩ := State.may_dispatch_of_not_quiescent (by simpa using hidle) ht
    simp at herr
  | reset =>
    obtain ⟨-, -, hne⟩ := State.may_dispatch_of_not_quiescent rfl ht
    exact absurd rfl hne
  | read | writeIgnored | writeScount | stored | polled | pollAgain | sink => cases hs.symm.trans ht

/-- The turns that are not the host's and not reset leave a quiescent state as it is, but for the sink's
level. -/
theorem TurnEffect.eq_of_quiescent {s t : State} {u : Turn} (h : TurnEffect s u t) (hs : s.quiescent = true)
    (hhost : u.isHost = false) (hreset : u ≠ .reset) : t = { s with sReady := t.sReady } := by
  cases h with
  | engine h => rw [h.eq_of_quiescent hs]
  | sink => rfl
  | reset => exact absurd rfl hreset
  | read | writeIgnored | writeCtrl | writeStatus | writeScount | queued | refusedCmd | stored | refusedBuf
  | polled | pollAgain => cases hhost

/-- The next turn of a state without host turns to come is not the host's, and neither are the later ones. -/
theorem State.hostDone_turns {s : State} (h : s.hostDone = true) :
    s.nextTurn.isHost = false ∧ ({ s with agenda := s.laterTurns } : State).hostDone = true := by
  rw [State.hostDone_iff] at h
  rw [State.hostDone_iff, State.nextTurn, State.laterTurns]
  cases hagenda : s.agenda with
  | nil => exact ⟨rfl, fun t ht => absurd ht List.not_mem_nil⟩
  | cons u rest =>
    rw [hagenda] at h
    exact ⟨h u List.mem_cons_self, fun t ht => h t (List.mem_cons_of_mem u ht)⟩

/-- Settles O44: an idle engine without a dispatch rests, and the other turns are split by whose they are. -/
theorem quiescentUntilAHostWrite : Obligations.QuiescentUntilAHostWrite := by
  refine ⟨fun s rest hs => ?_, fun s t hs hstep ht => ?_, fun s t hs hstep hreset => ?_⟩
  · exact (step_engine s rest).trans (engineStep_of_quiescent (s := { s with agenda := rest }) hs)
  · exact (step_effect s t hstep).quiescence_ends hs ht
  · obtain ⟨hdone, hquiescent⟩ := s.ended_iff.1 hs
    obtain ⟨hhost, hlater⟩ := State.hostDone_turns hdone
    have hsame := (step_effect s t hstep).eq_of_quiescent hquiescent hhost hreset
    have hended : ({ s with agenda := s.laterTurns } : State).ended = true :=
      (State.ended_iff _).2 ⟨hlater, hquiescent⟩
    have htended : t.ended = true := by
      rw [hsame]
      exact hended
    refine ⟨htended, ?_, by rw [hsame]; rfl⟩
    rw [Bool.eq_iff_iff, t.endedNormally_iff, s.endedNormally_iff]
    rw [hsame] at htended ⊢
    simp only [htended, hs]

/-! ### Any number of steps -/

/-- What every step keeps, every run keeps. -/
theorem runSteps_keeps (P : State → Prop) (hkeep : ∀ s t, P s → step s = .next t → P t) (n : Nat) (s t : State)
    (hs : P s) (hrun : runSteps n s = .next t) : P t := by
  induction n generalizing s with
  | zero =>
    cases hrun
    exact hs
  | succ n ih =>
    obtain ⟨u, hstep, hrest⟩ := runSteps_succ_inv n s t hrun
    exact ih u (hkeep s u hs hstep) hrest

/-- A turn puts at most engine turns and polls on the agenda (R92, log 13). -/
theorem TurnEffect.agenda_mem {s t : State} {u v : Turn} (h : TurnEffect s u t) (hv : v ∈ t.agenda) :
    v ∈ s.agenda ∨ v = .engine ∨ v = .waitEmpty := by
  cases h with
  | engine h => exact .inl (h.keeps.agenda ▸ hv)
  | pollAgain =>
    simp only [List.mem_cons] at hv
    tauto
  | refusedCmd | refusedBuf | stored => exact .inl (by simpa using hv)
  | read | writeIgnored | writeCtrl | writeStatus | writeScount | queued | polled | sink | reset =>
    exact .inl hv

/-- A write on the agenda after a step was on it before (R92). -/
theorem step_agenda_mem {s t : State} {v : Turn} (hstep : step s = .next t) (hv : v ∈ t.agenda)
    (hengine : v ≠ .engine) (hpoll : v ≠ .waitEmpty) : v ∈ s.agenda := by
  obtain hmem | rfl | rfl := (step_effect s t hstep).agenda_mem hv
  · exact List.mem_of_mem_drop hmem
  · exact absurd rfl hengine
  · exact absurd rfl hpoll

/-- The next turn is the agenda's first, if it is anyone's but the engine's (log 1). -/
theorem State.nextTurn_mem {s : State} {u : Turn} (h : s.nextTurn = u) (hu : u ≠ .engine) : u ∈ s.agenda := by
  unfold State.nextTurn at h
  split at h
  · exact absurd h.symm hu
  · rename_i hagenda
    rw [hagenda, h]
    exact List.mem_cons_self

/-- Unlocked is idle with an empty queue (R28, R66). -/
theorem State.unlocked_iff (s : State) : s.locked = false ↔ s.op = .idle ∧ s.queue = [] := by
  rw [← Bool.not_eq_true, s.locked_iff, s.busy_iff, List.length_pos_iff, not_or, not_not, not_not]

/-- An unlocked engine is quiescent. -/
theorem State.quiescent_of_unlocked {s : State} (h : s.locked = false) : s.quiescent = true := by
  obtain ⟨hop, hq⟩ := s.unlocked_iff.1 h
  exact s.quiescent_iff.2 ⟨hop, .inl hq⟩

/-- An idle engine with RUN = 0 is quiescent. -/
theorem State.quiescent_of_stopped {s : State} (hop : s.op = .idle) (hrun : s.run = false) :
    s.quiescent = true := s.quiescent_iff.2 ⟨hop, .inr (.inl hrun)⟩

/-- Every turn leaves an idle engine that may not dispatch idle, with the stream as it is. -/
theorem TurnEffect.idle_of_quiescent {s t : State} {u : Turn} (h : TurnEffect s u t)
    (hs : s.quiescent = true) : t.op = .idle ∧ t.stream = s.stream := by
  obtain ⟨hidle, -⟩ := s.quiescent_iff.1 hs
  by_cases hu : u = .engine
  · subst hu
    cases h with
    | engine h =>
      rw [h.eq_of_quiescent hs]
      exact ⟨hidle, rfl⟩
  · refine ⟨?_, h.stream_of_ne_engine hu⟩
    by_cases hreset : u = .reset
    · subst hreset
      cases h
      rfl
    · exact (State.op_of_record (h.record_kept hu hreset)).trans hidle

/-- Every turn but reset leaves the queue of a quiescent engine in place, and but for a CMD write as it is. -/
theorem TurnEffect.queue_of_quiescent {s t : State} {u : Turn} (h : TurnEffect s u t)
    (hs : s.quiescent = true) (hreset : u ≠ .reset) :
    t.queue = s.queue ∨ ∃ c, u = .write 3#10 c ∧ t.queue = s.queue ++ [c] := by
  by_cases hu : u = .engine
  · subst hu
    cases h with
    | engine h => exact .inl (by rw [h.eq_of_quiescent hs])
  · obtain hkept | ⟨c, hc, -, hq⟩ := h.queue_cases hu hreset
    · exact .inl hkept
    · exact .inr ⟨c, hc, hq⟩

/-- CTRL changes only by its write and by reset (R27, R171). -/
theorem TurnEffect.ctrl_cases {s t : State} {u : Turn} (h : TurnEffect s u t) :
    t.ctrl = s.ctrl ∨ (∃ d, u = .write 1#10 d ∧ t.ctrl = d.setWidth 4) ∨ t.ctrl = 0#4 := by
  cases h with
  | engine h => exact .inl h.keeps.ctrl
  | writeCtrl d => exact .inr (.inl ⟨d, rfl, rfl⟩)
  | reset => exact .inr (.inr rfl)
  | refusedCmd | refusedBuf | stored => exact .inl (by simp)
  | read | writeIgnored | writeStatus | writeScount | queued | polled | pollAgain | sink => exact .inl rfl

/-- LOCKED = 0 with no CMD write to come, and the stream as given. -/
def UnlockedWith (xs : List Word) (s : State) : Prop :=
  s.locked = false ∧ (∀ c, Turn.write 3#10 c ∉ s.agenda) ∧ s.stream = xs

/-- Every step keeps LOCKED = 0 while no CMD write is to come (20_memory.md section 7). -/
theorem step_unlockedWith {xs : List Word} {s t : State} (hs : UnlockedWith xs s)
    (hstep : step s = .next t) : UnlockedWith xs t := by
  obtain ⟨hunlocked, hnone, hstream⟩ := hs
  have heffect := step_effect s t hstep
  have hquiescent : ({ s with agenda := s.laterTurns } : State).quiescent = true :=
    State.quiescent_of_unlocked hunlocked
  obtain ⟨hop, hkept⟩ := heffect.idle_of_quiescent hquiescent
  obtain ⟨-, hempty⟩ := s.unlocked_iff.1 hunlocked
  have hqueue : t.queue = [] := by
    by_cases hreset : s.nextTurn = .reset
    · rw [hreset] at heffect
      cases heffect
      rfl
    · obtain hq | ⟨c, hturn, -⟩ := heffect.queue_of_quiescent hquiescent hreset
      · exact hq.trans hempty
      · exact absurd (State.nextTurn_mem hturn Turn.noConfusion) (hnone c)
  exact ⟨t.unlocked_iff.2 ⟨hop, hqueue⟩,
    fun c hc => hnone c (step_agenda_mem hstep hc Turn.noConfusion Turn.noConfusion), hkept.trans hstream⟩

/-- Idle with RUN = 0 and no write of RUN = 1 to come, and the stream as given. -/
def StoppedWith (xs : List Word) (s : State) : Prop :=
  s.op = .idle ∧ s.run = false ∧ (∀ d, Turn.write 1#10 d ∈ s.agenda → d.getLsbD 0 = false) ∧ s.stream = xs

/-- Every step keeps the engine stopped while no write of RUN = 1 is to come (20_memory.md section 7). -/
theorem step_stoppedWith {xs : List Word} {s t : State} (hs : StoppedWith xs s) (hstep : step s = .next t) :
    StoppedWith xs t := by
  obtain ⟨hidle, hrun, hnone, hstream⟩ := hs
  have heffect := step_effect s t hstep
  obtain ⟨hop, hkept⟩ := heffect.idle_of_quiescent (State.quiescent_of_stopped hidle hrun)
  have hstopped : t.run = false := by
    rw [State.run] at hrun ⊢
    obtain hctrl | ⟨d, hturn, hctrl⟩ | hctrl := heffect.ctrl_cases <;> rw [hctrl]
    · exact hrun
    · simpa using hnone d (State.nextTurn_mem hturn Turn.noConfusion)
    · decide
  exact ⟨hop, hstopped,
    fun d hd => hnone d (step_agenda_mem hstep hd Turn.noConfusion Turn.noConfusion), hkept.trans hstream⟩

/-- Stopped, no reset to come, and the given words at the queue's front. -/
def StoppedQueue (q : List Word) (s : State) : Prop :=
  StoppedWith s.stream s ∧ Turn.reset ∉ s.agenda ∧ ∃ later, s.queue = q ++ later

/-- Every step of a stopped engine without a reset keeps each queued word in its place. -/
theorem step_stoppedQueue {q : List Word} {s t : State} (hs : StoppedQueue q s) (hstep : step s = .next t) :
    StoppedQueue q t := by
  obtain ⟨hstopped, hnone, later, hqueue⟩ := hs
  obtain ⟨hop, hrun, hwrites, hstream⟩ := step_stoppedWith hstopped hstep
  have hreset : s.nextTurn ≠ .reset := fun hturn => hnone (State.nextTurn_mem hturn Turn.noConfusion)
  obtain ⟨hidle, hrun', -⟩ := hstopped
  refine ⟨⟨hop, hrun, hwrites, rfl⟩,
    fun hr => hnone (step_agenda_mem hstep hr Turn.noConfusion Turn.noConfusion), ?_⟩
  obtain hq | ⟨c, -, hq⟩ :=
    (step_effect s t hstep).queue_of_quiescent (State.quiescent_of_stopped hidle hrun') hreset
  · exact ⟨later, hq.trans hqueue⟩
  · have happend : t.queue = s.queue ++ [c] := hq
    exact ⟨later ++ [c], by rw [happend, hqueue, List.append_assoc]⟩

/-- Settles O43: three properties that every step keeps, each from the start of the run. -/
theorem engineStaysIdleUntilTheHostActs : Obligations.EngineStaysIdleUntilTheHostActs := by
  intro n s t hrun
  refine ⟨fun hunlocked hnone => ?_, fun hop hstopped hnone => ?_⟩
  · obtain ⟨hlocked, -, hstream⟩ := runSteps_keeps (UnlockedWith s.stream)
      (fun _ _ => step_unlockedWith) n s t ⟨hunlocked, hnone, rfl⟩ hrun
    exact ⟨hlocked, hstream⟩
  · obtain ⟨htop, htrun, -, hstream⟩ := runSteps_keeps (StoppedWith s.stream)
      (fun _ _ => step_stoppedWith) n s t ⟨hop, hstopped, hnone, rfl⟩ hrun
    refine ⟨htop, htrun, hstream, fun hreset => ?_⟩
    obtain ⟨-, -, hqueue⟩ := runSteps_keeps (StoppedQueue s.queue) (fun _ _ => step_stoppedQueue) n s t
      ⟨⟨hop, hstopped, hnone, rfl⟩, hreset, [], (List.append_nil _).symm⟩ hrun
    exact hqueue

end Sys2Proof.Machine
end

section
/-! PROOF. The host's accesses as a host sees them (10_state.md section 3, 44_host_access.md), and the
state after reset (10_state.md section 5, 70_reset_and_hazards.md). -/

namespace Sys2Proof.Machine

/-! ### Reads -/

/-- The register at an address that is none of the first six, the window's or an unmapped one. -/
theorem Reg.ofAddr_unmapped (a : BitVec 10) (h6 : 6 ≤ a.toNat) (hbuf : a.toNat / 128 ≠ 4) :
    Reg.ofAddr a = .unmapped := by
  obtain ⟨-, rfl⟩ | ⟨-, rfl⟩ | ⟨-, rfl⟩ | ⟨-, rfl⟩ | ⟨-, rfl⟩ | ⟨-, rfl⟩ | ⟨j, -, hj⟩ | ⟨hreg, -⟩ :=
    Reg.ofAddr_cases a
  iterate 6 exact absurd h6 (by decide)
  · have := j.isLt
    omega
  · exact hreg

/-- The register at an address given by its number (R25). -/
theorem Reg.ofAddr_of_toNat {a : BitVec 10} {n : Nat} (h : a.toNat = n) :
    Reg.ofAddr a = Reg.ofAddr (BitVec.ofNat 10 n) := by
  rw [← h, BitVec.ofNat_toNat, BitVec.setWidth_eq]

/-- Settles O45: the read answers the value of the register at its address, range by range. -/
theorem hostReadsReturnTheRegisterMap : Obligations.HostReadsReturnTheRegisterMap := by
  intro s rest a
  refine ⟨s.readReg (Reg.ofAddr a), step_read s rest a, fun h => ?_, fun h => ?_, fun h => ?_, fun h => ?_,
    fun h => ?_, fun h => ?_, fun hlow hhigh => ?_, fun hlow hhigh => ?_, fun hlow => ?_⟩
  · rw [Reg.ofAddr_of_toNat h]
    rfl
  · have hctrl : Reg.ofAddr a = .ctrl := Reg.ofAddr_of_toNat h
    have := s.ctrl.isLt
    rw [hctrl, State.readReg, BitVec.toNat_setWidth]
    omega
  · rw [Reg.ofAddr_of_toNat h]
    rfl
  · rw [Reg.ofAddr_of_toNat h]
    rfl
  · rw [Reg.ofAddr_of_toNat h]
    rfl
  · have hparam : Reg.ofAddr a = .param := Reg.ofAddr_of_toNat h
    rw [hparam, State.readReg, s.paramWord_toNat]
  · rw [Reg.ofAddr_unmapped a hlow (by omega), State.readReg]
  · have hword : (BitVec.ofNat 7 (a.toNat - 512)).toNat = a.toNat - 512 := by
      rw [BitVec.toNat_ofNat]
      omega
    rw [Reg.ofAddr_buf a (by omega), State.readReg, s.bufWord_toNat, hword]
  · have := a.isLt
    rw [Reg.ofAddr_unmapped a (by omega) (by omega), State.readReg]

/-- Settles O46: each bit of the sum is 1 exactly when its condition holds. -/
theorem statusWordIsTheSumOfItsFields : Obligations.StatusWordIsTheSumOfItsFields := by
  intro s hbound
  have hbusy : s.busy.toNat = if s.op = .idle then 0 else 1 := by
    by_cases hop : s.op = .idle <;> simp [State.busy, hop]
  have hempty : 2 * s.qempty.toNat = if s.queue = [] then 2 else 0 := by
    by_cases hq : s.queue = [] <;> simp [State.qempty, hq]
  have hfull : 4 * s.qfull.toNat = if s.queue.length = 16 then 4 else 0 := by
    by_cases hq : s.queue.length = 16 <;> simp [State.qfull, cmdqDepth, hq]
  have hdone : 8 * s.done.toNat = if s.done then 8 else 0 := by cases s.done <;> rfl
  have herr : 16 * s.err.toNat = if s.err then 16 else 0 := by cases s.err <;> rfl
  have hlocked : 32 * s.locked.toNat = if s.op = .idle ∧ s.queue = [] then 0 else 32 := by
    split_ifs with hidle
    · rw [s.unlocked_iff.2 hidle]
      rfl
    · rw [Bool.eq_true_of_not_eq_false (mt s.unlocked_iff.1 hidle)]
      rfl
  rw [s.status_toNat, hbusy, hempty, hfull, hdone, herr, hlocked,
    Nat.mod_eq_of_lt (show s.queue.length < 2 ^ 5 by omega)]
  ring

/-! ### Writes -/

/-- Settles O50: CTRL takes the low four bits of the data. -/
theorem ctrlWriteSetsItsFourFields : Obligations.CtrlWriteSetsItsFourFields := by
  intro s rest d
  refine ⟨d.setWidth 4, ?_, BitVec.toNat_setWidth 4 d⟩
  have hreg : Reg.ofAddr 1#10 = .ctrl := by decide
  rw [step_write, hreg, writeReg, writeCtrl]

/-- Settles O51: the STATUS write field by field. -/
theorem statusWriteClearsTheNamedFlags : Obligations.StatusWriteClearsTheNamedFlags := by
  intro s rest d
  have hreg : Reg.ofAddr 2#10 = .status := by decide
  rw [step_write, hreg, writeReg, writeStatus_eq]

/-- The step of a legal CMD write to a queue with room is the push of its word (R173). -/
theorem step_cmdWrite_of_legal (s : State) (rest : List Turn) (c : Word) (hlegal : legalWord c = true)
    (hroom : s.queue.length ≠ 16) :
    step { s with agenda := .write 3#10 c :: rest } =
      .next { s with agenda := rest, queue := s.queue ++ [c] } := by
  obtain ⟨i, hd⟩ := (legalWord_iff c).1 hlegal
  have hreg : Reg.ofAddr 3#10 = .cmd := by decide
  have hnotFull : ({ s with agenda := rest } : State).qfull = false := decide_eq_false hroom
  simp only [step_write, hreg, writeReg, writeCmd, hd, hnotFull, Bool.false_eq_true, if_false, State.push]

/-- Settles O52: the third case of a CMD write. -/
theorem legalCmdWriteIsQueued : Obligations.LegalCmdWriteIsQueued := step_cmdWrite_of_legal

/-! ### Reset -/

/-- Settles O58: the reset state is a closed one, evaluated. -/
theorem resetStateReadsAsTheSpecSays : Obligations.ResetStateReadsAsTheSpecSays := by
  refine ⟨rfl, by decide, by decide, rfl, by decide, rfl, rfl, rfl, rfl, rfl⟩

/-- Settles O59: a reset turn is `resetBlock`, whose registers are those of the reset state. -/
theorem resetTurnReplacesTheBlockState : Obligations.ResetTurnReplacesTheBlockState := by
  intro s rest
  refine ⟨({ s with agenda := rest } : State).resetBlock, step_of_agenda _ .reset rest rfl, ?_⟩
  have hstatus : ({ s with agenda := rest } : State).resetBlock.status = State.reset.status := rfl
  have hreads : State.reset.status = 0x00000002#32 := by decide
  exact ⟨rfl, hstatus.trans hreads, rfl, rfl, rfl, rfl, rfl, rfl, rfl, rfl, rfl, rfl, rfl, rfl, rfl, rfl, rfl,
    rfl, rfl, rfl, rfl⟩

/-- A word's magnitude bits are those of a normal number of at most 1.0 (20_memory.md R63, log 16). -/
def normalUpToOne (w : Word) : Bool :=
  decide (0x00800000 ≤ w.toNat % 2 ^ 31) && decide (w.toNat % 2 ^ 31 ≤ 0x3F800000)

theorem normalUpToOne_iff (w : Word) :
    normalUpToOne w = true ↔ 0x00800000 ≤ w.toNat % 2 ^ 31 ∧ w.toNat % 2 ^ 31 ≤ 0x3F800000 := by
  rw [normalUpToOne, Bool.and_eq_true, decide_eq_true_iff, decide_eq_true_iff]

/-- Every entry of the space row but the first (R123). -/
theorem spaceRow_normal : (spaceRow.drop 1).all normalUpToOne = true := by decide

/-- Every entry of the mark row but the first (R123). -/
theorem markRow_normal : (markRow.drop 1).all normalUpToOne = true := by decide

/-- Settles O60: the rows of the two configurations are those of R122, whose entries are checked one by one. -/
theorem defaultTableIsFiniteAndInRange : Obligations.DefaultTableIsFiniteAndInRange := by
  refine ⟨by decide, by decide, fun t => ?_⟩
  obtain rfl | rfl : t = 0#1 ∨ t = 1#1 := by
    revert t
    decide
  · exact ⟨rfl, rfl, fun w hw => (normalUpToOne_iff w).1 (List.all_eq_true.1 spaceRow_normal w hw)⟩
  · exact ⟨rfl, rfl, fun w hw => (normalUpToOne_iff w).1 (List.all_eq_true.1 markRow_normal w hw)⟩

end Sys2Proof.Machine
end

section
/-! PROOF. The runs of whole commands while the engine has every turn (41_afsk_modulator.md,
42_sample_synthesizer.md): the samples of a unit, of a byte, of a range and of an attention segment, and
the state that each command ends in. -/

namespace Sys2Proof.Machine

/-! ### Emitting several samples -/

/-- The sink receives the samples of a list, in order, and SCOUNT counts them (R129). -/
def State.emits (xs : List Word) (s : State) : State :=
  { s with received := xs.reverse ++ s.received, scount := s.scount + BitVec.ofNat 32 xs.length }

@[simp] theorem State.emits_nil (s : State) : s.emits [] = s := by
  simp [State.emits]

theorem State.emits_append (xs ys : List Word) (s : State) :
    s.emits (xs ++ ys) = (s.emits xs).emits ys := by
  simp [State.emits, BitVec.ofNat_add, BitVec.add_assoc]

theorem State.emits_singleton (w : Word) (s : State) : s.emits [w] = s.emit w := rfl

/-- One more sample after those of a list. -/
theorem State.emits_snoc (xs : List Word) (w : Word) (s : State) :
    s.emits (xs ++ [w]) = (s.emits xs).emit w := by
  rw [State.emits_append, State.emits_singleton]

theorem State.emits_bufByte (xs : List Word) (s : State) (a : Nat) : (s.emits xs).bufByte a = s.bufByte a := rfl

theorem State.emits_stream (xs : List Word) (s : State) : (s.emits xs).stream = s.stream ++ xs := by
  simp [State.emits, State.stream]

/-! ### The end of a command's run -/

/-- The record of `r`, but for `op`, in the state `s`. -/
def State.withRecordOf (s r : State) : State :=
  { s with ptr := r.ptr, left := r.left, cur := r.cur, bitn := r.bitn, tone := r.tone, k := r.k,
           acnt := r.acnt, azero := r.azero }

/-- `u` is `s` after a whole command that emitted `xs`: the samples are received and counted, the command is
complete, and nothing else but the record's other fields has changed (R153). -/
def CompletedWith (s : State) (xs : List Word) (u : State) : Prop :=
  u = (s.emits xs).complete.withRecordOf u

/-- All that a completed command leaves to be read. -/
structure CommandEnd (s : State) (xs : List Word) (u : State) : Prop where
  stream : u.stream = s.stream ++ xs
  scount : u.scount = s.scount + BitVec.ofNat 32 xs.length
  op : u.op = .idle
  queue : u.queue = s.queue
  done : u.done = (s.done || s.qempty)
  ctrl : u.ctrl = s.ctrl
  err : u.err = s.err
  cfg : u.cfg = s.cfg
  sReady : u.sReady = s.sReady
  agenda : u.agenda = s.agenda
  bufByte : ∀ a, u.bufByte a = s.bufByte a

theorem CompletedWith.commandEnd {s u : State} {xs : List Word} (h : CompletedWith s xs u) :
    CommandEnd s xs u := by
  unfold CompletedWith at h
  exact {
    stream := (congrArg State.stream h).trans (s.emits_stream xs)
    scount := (congrArg State.scount h).trans rfl
    op := (congrArg State.op h).trans rfl
    queue := (congrArg State.queue h).trans rfl
    done := (congrArg State.done h).trans rfl
    ctrl := (congrArg State.ctrl h).trans rfl
    err := (congrArg State.err h).trans rfl
    cfg := (congrArg State.cfg h).trans rfl
    sReady := (congrArg State.sReady h).trans rfl
    agenda := (congrArg State.agenda h).trans rfl
    bufByte := fun a => (congrArg (State.bufByte · a) h).trans rfl }

/-- A command without samples that completes at once. -/
theorem completedWith_nil (s : State) : CompletedWith s [] s.complete := by
  rw [CompletedWith, State.emits_nil]
  rfl

/-- The samples that a command emitted before some point of its run. -/
theorem CompletedWith.after_emits {s u : State} {xs ys : List Word} (h : CompletedWith (s.emits xs) ys u) :
    CompletedWith s (xs ++ ys) u := by
  rw [CompletedWith, State.emits_append]
  exact h

/-! ### Steps of an engine that has every turn -/

/-- A step with an empty agenda, from its effect (log 1). -/
theorem EngineEffect.step_of_nil {s t : State} (h : EngineEffect s t) (hagenda : s.agenda = []) :
    step s = .next t := (step_nil s hagenda).trans h.engineStep_eq

/-- One more step after a run. -/
theorem runSteps_snoc {n : Nat} {s t u : State} (hrun : runSteps n s = .next t) (hstep : step t = .next u) :
    runSteps (n + 1) s = .next u := by
  rw [runSteps_add n 1 s t hrun, runSteps_succ 0 t u hstep, runSteps_zero]

/-- The run of one part and then of another. -/
theorem runSteps_trans {m n : Nat} {s t : State} {r : Host.Outcome State Fault Refusal}
    (hfirst : runSteps m s = .next t) (hsecond : runSteps n t = r) : runSteps (m + n) s = r :=
  (runSteps_add m n s t hfirst).trans hsecond

/-! ### A unit of `SPB` samples -/

/-- The engine is at the start of a unit, of the samples `xs`, on an accepting sink and with every turn. -/
structure UnitStart (s : State) (xs : List Word) : Prop where
  samples : ((s.op = .mod ∨ s.op = .bit) ∧ s.cfg.rom s.tone = xs) ∨
    (s.op = .sil ∧ xs = List.replicate s.cfg.spb.toNat silence)
  length : xs.length = s.cfg.spb.toNat
  first : s.k = 0#7
  ready : s.sReady = true
  agenda : s.agenda = []

/-- A sample index of a unit keeps its number in `k` (R159). -/
theorem sampleIndex_toNat (b : SamplesPerBit) {n : Nat} (hn : n < b.toNat) : (BitVec.ofNat 7 n).toNat = n := by
  have := b.toNat_bounds
  rw [BitVec.toNat_ofNat]
  omega

/-- The sample that the unit's step of a given index emits. -/
theorem UnitStart.sample {s : State} {xs : List Word} (h : UnitStart s xs) {n : Nat} (hn : n < xs.length) :
    ((s.op = .mod ∨ s.op = .bit) ∧ (s.cfg.rom s.tone)[(BitVec.ofNat 7 n).toNat]? = some xs[n]) ∨
      (s.op = .sil ∧ xs[n] = silence) := by
  rw [sampleIndex_toNat s.cfg.spb (h.length ▸ hn)]
  obtain ⟨hop, hrom⟩ | ⟨hop, hsil⟩ := h.samples
  · exact .inl ⟨hop, by rw [hrom, List.getElem?_eq_getElem hn]⟩
  · have hall : ∀ x ∈ xs, x = silence := by
      rw [hsil]
      exact fun x => List.eq_of_mem_replicate
    exact .inr ⟨hop, hall _ (List.getElem_mem hn)⟩

/-- The first `n` samples of a unit that has more (R103, R105, R126). -/
theorem UnitStart.firstSamples_run {s : State} {xs : List Word} (h : UnitStart s xs) (n : Nat)
    (hn : n < s.cfg.spb.toNat) :
    runSteps n s = .next { s.emits (xs.take n) with k := BitVec.ofNat 7 n } := by
  induction n with
  | zero =>
    rw [List.take_zero, State.emits_nil, runSteps_zero, ← h.first]
  | succ n ih =>
    have hlast : n < xs.length := by
      have := h.length
      omega
    have hindex := sampleIndex_toNat s.cfg.spb (show n < s.cfg.spb.toNat by omega)
    have hgo : ({ s.emits (xs.take n) with k := BitVec.ofNat 7 n } : State).unitGoesOn = true := by
      rw [State.unitGoesOn_iff, hindex]
      exact Nat.lt_sub_of_add_lt hn
    refine runSteps_snoc (ih (by omega)) ?_
    rw [List.take_succ_eq_append_getElem hlast, State.emits_snoc, BitVec.ofNat_add]
    exact EngineEffect.step_of_nil (.unitSample xs[n] h.ready hgo (h.sample hlast)) h.agenda

/-- The engine is at the last sample of a unit that `s` started: the samples `ys` are out, `w` is to come. -/
structure UnitLast (s : State) (ys : List Word) (w : Word) (t : State) : Prop where
  reached : t = { s.emits ys with k := BitVec.ofNat 7 ys.length }
  run : ∀ u, EngineEffect t u → runSteps s.cfg.spb.toNat s = .next u
  noMore : t.unitGoesOn = false
  sample : ((s.op = .mod ∨ s.op = .bit) ∧ (s.cfg.rom s.tone)[t.k.toNat]? = some w) ∨ (s.op = .sil ∧ w = silence)

/-- Every unit comes to its last sample, and the whole unit is the run to there and the effect of that step. -/
theorem UnitStart.last {s : State} {xs : List Word} (h : UnitStart s xs) :
    ∃ ys w t, xs = ys ++ [w] ∧ UnitLast s ys w t := by
  have hspb := s.cfg.spb.toNat_bounds
  have hlength := h.length
  obtain rfl | ⟨ys, w, rfl⟩ := xs.eq_nil_or_concat'
  · rw [List.length_nil] at hlength
    omega
  rw [List.length_append, List.length_singleton] at hlength
  have hindex := sampleIndex_toNat s.cfg.spb (show ys.length < s.cfg.spb.toNat by omega)
  refine ⟨ys, w, _, rfl, rfl, fun u heffect => ?_, ?_, ?_⟩
  · have hfirst := h.firstSamples_run ys.length (by omega)
    rw [List.take_left] at hfirst
    rw [← hlength]
    exact runSteps_snoc hfirst (heffect.step_of_nil h.agenda)
  · rw [State.unitGoesOn_eq_false_iff, hindex]
    exact Nat.not_lt.2 (Nat.sub_le_of_le_add hlength.ge)
  · have hsample := h.sample (n := ys.length) (by simp)
    rwa [List.getElem_concat_length rfl] at hsample

/-- A unit of a BIT or a SIL runs to its completion (R105, R126). -/
theorem UnitStart.run_completes {s : State} {xs : List Word} (h : UnitStart s xs)
    (hop : s.op = .bit ∨ s.op = .sil) :
    ∃ u, runSteps s.cfg.spb.toNat s = .next u ∧ CompletedWith s xs u := by
  obtain ⟨ys, w, t, rfl, hlast⟩ := h.last
  have hsample : (s.op = .bit ∧ (s.cfg.rom s.tone)[t.k.toNat]? = some w) ∨ (s.op = .sil ∧ w = silence) := by
    have hnotMod : s.op ≠ .mod := by obtain hop | hop := hop <;> simp [hop]
    have := hlast.sample
    tauto
  obtain ⟨rfl, hrun, hno, -⟩ := hlast
  refine ⟨_, hrun _ (.unitEnd w h.ready hno hsample), ?_⟩
  rw [CompletedWith, State.emits_snoc]
  rfl

/-! ### A range of bytes -/

/-- A MOD at the start of bit `j` of the byte at address `a`, `l` bytes left (R43, R103). -/
def modAt (a l j : Nat) (s : State) : State :=
  { s with op := .mod, ptr := BitVec.ofNat 10 a, left := BitVec.ofNat 10 l, cur := s.bufByte a,
           bitn := BitVec.ofNat 3 j, tone := bitTone (s.bufByte a) (BitVec.ofNat 3 j), k := 0#7 }

/-- The bit-tone of bit `j` of a byte (R101, R102). -/
def toneOfBit (c : Config) (b : Byte) (j : Nat) : List Word := bitToneSamples c (BitVec.ofBool (b.getLsbD j))

theorem byteSamples_eq (c : Config) (b : Byte) : byteSamples c b = (List.range 8).flatMap (toneOfBit c b) := rfl

/-- What every part of a MOD's run needs: a whole table, an accepting sink, and every turn. -/
structure CanModulate (s : State) : Prop where
  table : s.cfg.wf = true
  ready : s.sReady = true
  agenda : s.agenda = []

theorem CanModulate.emits {s : State} (h : CanModulate s) (xs : List Word) : CanModulate (s.emits xs) :=
  ⟨h.table, h.ready, h.agenda⟩

/-- A bit index keeps its number in `bitn`. -/
theorem bitIndex_toNat {j : Nat} (hj : j < 8) : (BitVec.ofNat 3 j).toNat = j := by
  rw [BitVec.toNat_ofNat]
  omega

/-- Each bit of a byte starts a unit of its tone (R101). -/
theorem CanModulate.unitStart {s : State} (h : CanModulate s) (a l : Nat) {j : Nat} (hj : j < 8) :
    UnitStart (modAt a l j s) (toneOfBit s.cfg (s.bufByte a) j) where
  samples := by
    refine .inl ⟨.inl rfl, ?_⟩
    simp only [modAt, bitTone_eq, bitIndex_toNat hj, toneOfBit, bitToneSamples]
  length := Config.rom_length _ h.table _
  first := rfl
  ready := h.ready
  agenda := h.agenda

/-- The last sample of a bit of a MOD is its tone's. -/
theorem UnitLast.modSample {s t : State} {ys : List Word} {w : Word} (h : UnitLast s ys w t)
    (hop : s.op = .mod) :
    (s.cfg.rom s.tone)[t.k.toNat]? = some w := by
  obtain ⟨-, hrom⟩ | ⟨hsil, -⟩ := h.sample
  · exact hrom
  · cases hop.symm.trans hsil

/-- One bit-tone of a MOD that has a next bit in its byte (R103). -/
theorem CanModulate.bit_run {s : State} (h : CanModulate s) (a l : Nat) {j : Nat} (hj : j < 7) :
    runSteps s.cfg.spb.toNat (modAt a l j s) =
      .next (modAt a l (j + 1) (s.emits (toneOfBit s.cfg (s.bufByte a) j))) := by
  have hstart := h.unitStart a l (show j < 8 by omega)
  obtain ⟨ys, w, t, htone, hlast⟩ := hstart.last
  have hw := hlast.modSample rfl
  obtain ⟨rfl, hrun, hno, -⟩ := hlast
  have hbit : (BitVec.ofNat 3 j).toNat < 7 := by rwa [bitIndex_toNat (by omega)]
  have hsucc : BitVec.ofNat 3 (j + 1) = BitVec.ofNat 3 j + 1#3 := BitVec.ofNat_add ..
  rw [htone, State.emits_snoc]
  simp only [modAt, hsucc]
  exact hrun _ (.modNextBit w rfl hstart.ready hno hw hbit)

/-- The first `j` bit-tones of a byte (R100). -/
theorem CanModulate.bits_run {s : State} (h : CanModulate s) (a l j : Nat) (hj : j ≤ 7) :
    runSteps (j * s.cfg.spb.toNat) (modAt a l 0 s) =
      .next (modAt a l j (s.emits ((List.range j).flatMap (toneOfBit s.cfg (s.bufByte a))))) := by
  induction j with
  | zero => rw [Nat.zero_mul, List.range_zero, List.flatMap_nil, State.emits_nil, runSteps_zero]
  | succ j ih =>
    rw [Nat.succ_mul, List.range_succ, List.flatMap_append, List.flatMap_singleton, State.emits_append]
    exact runSteps_trans (ih (by omega)) ((h.emits _).bit_run a l (by omega))

/-- Counting down by one. -/
theorem ofNat_succ_sub_one (w n : Nat) : BitVec.ofNat w (n + 1) - 1#w = BitVec.ofNat w n := by
  rw [BitVec.ofNat_add]
  exact BitVec.add_sub_cancel _ _

/-- The last bit-tone of a byte that is not the last of its range: the next byte starts (R103, R104). -/
theorem CanModulate.lastBit_run {s : State} (h : CanModulate s) (a l : Nat) (hl : 1 ≤ l)
    (hrange : a + 1 + l ≤ 512) :
    runSteps s.cfg.spb.toNat (modAt a (l + 1) 7 s) =
      .next (modAt (a + 1) l 0 (s.emits (toneOfBit s.cfg (s.bufByte a) 7))) := by
  have hstart := h.unitStart a (l + 1) (show 7 < 8 by omega)
  obtain ⟨ys, w, t, htone, hlast⟩ := hstart.last
  have hw := hlast.modSample rfl
  obtain ⟨rfl, hrun, hno, -⟩ := hlast
  have hleft : BitVec.ofNat 10 l = BitVec.ofNat 10 (l + 1) - 1#10 := (ofNat_succ_sub_one 10 l).symm
  have hmore : BitVec.ofNat 10 (l + 1) - 1#10 ≠ 0#10 := by
    intro hzero
    have hnumber := congrArg BitVec.toNat (hleft.trans hzero)
    rw [BitVec.toNat_ofNat, BitVec.toNat_ofNat] at hnumber
    omega
  have hptr : BitVec.ofNat 10 (a + 1) = BitVec.ofNat 10 a + 1#10 := BitVec.ofNat_add ..
  have haddress : (BitVec.ofNat 10 a + 1#10).toNat = a + 1 := by
    rw [← hptr, BitVec.toNat_ofNat]
    omega
  have hinside : (BitVec.ofNat 10 a + 1#10).toNat < bufBytes := by
    rw [haddress, bufBytes]
    omega
  have hbyte : s.bufByte (a + 1) = s.bufByte (BitVec.ofNat 10 a + 1#10).toNat := by rw [haddress]
  have hlastIndex : ¬ (BitVec.ofNat 3 7).toNat < 7 := by decide
  refine (hrun _ (.modNextByte w rfl hstart.ready hno hw hlastIndex hmore hinside)).trans ?_
  rw [htone, State.emits_snoc]
  simp only [modAt, hleft, hptr, State.emit_bufByte, State.emits_bufByte, hbyte]
  rfl

/-- The last bit-tone of a range: the command completes (R103, R153). -/
theorem CanModulate.end_run {s : State} (h : CanModulate s) (a : Nat) :
    ∃ u, runSteps s.cfg.spb.toNat (modAt a 1 7 s) = .next u ∧
      CompletedWith s (toneOfBit s.cfg (s.bufByte a) 7) u := by
  have hstart := h.unitStart a 1 (show 7 < 8 by omega)
  obtain ⟨ys, w, t, htone, hlast⟩ := hstart.last
  have hw := hlast.modSample rfl
  obtain ⟨rfl, hrun, hno, -⟩ := hlast
  have hlastIndex : ¬ (BitVec.ofNat 3 7).toNat < 7 := by decide
  have hlastByte : BitVec.ofNat 10 1 - 1#10 = 0#10 := by decide
  refine ⟨_, hrun _ (.modEnd w rfl hstart.ready hno hw hlastIndex hlastByte), ?_⟩
  rw [CompletedWith, htone, State.emits_snoc]
  rfl

/-- A byte's samples are those of its first seven bits and those of its last. -/
theorem byteSamples_split (c : Config) (b : Byte) :
    byteSamples c b = (List.range 7).flatMap (toneOfBit c b) ++ toneOfBit c b 7 := by
  rw [byteSamples_eq, List.range_succ, List.flatMap_append, List.flatMap_singleton]

/-- One byte of a MOD that has a next byte in its range (R103, R104). -/
theorem CanModulate.byte_run {s : State} (h : CanModulate s) (a l : Nat) (hl : 1 ≤ l)
    (hrange : a + 1 + l ≤ 512) :
    runSteps (8 * s.cfg.spb.toNat) (modAt a (l + 1) 0 s) =
      .next (modAt (a + 1) l 0 (s.emits (byteSamples s.cfg (s.bufByte a)))) := by
  rw [byteSamples_split, State.emits_append, Nat.succ_mul 7]
  exact runSteps_trans (h.bits_run a (l + 1) 7 le_rfl) ((h.emits _).lastBit_run a l hl hrange)

/-- The last byte of a MOD. -/
theorem CanModulate.lastByte_run {s : State} (h : CanModulate s) (a : Nat) :
    ∃ u, runSteps (8 * s.cfg.spb.toNat) (modAt a 1 0 s) = .next u ∧
      CompletedWith s (byteSamples s.cfg (s.bufByte a)) u := by
  obtain ⟨u, hrun, hend⟩ := (h.emits _).end_run a
  refine ⟨u, ?_, ?_⟩
  · rw [Nat.succ_mul 7]
    exact runSteps_trans (h.bits_run a 1 7 le_rfl) hrun
  · rw [byteSamples_split]
    exact hend.after_emits

/-- A range's samples are those of its first byte and those of the range after it. -/
theorem rangeSamples_succ (s : State) (a l : Nat) :
    rangeSamples s a (l + 1) = byteSamples s.cfg (s.bufByte a) ++ rangeSamples s (a + 1) l := by
  rw [rangeSamples, List.range_succ_eq_map, List.flatMap_cons, List.flatMap_map, rangeSamples, Nat.add_zero]
  simp only [Nat.succ_eq_add_one, Nat.add_assoc, Nat.add_comm 1]

/-- A range without bytes has no samples. -/
theorem rangeSamples_zero (s : State) (a : Nat) : rangeSamples s a 0 = [] := rfl

/-- A MOD of `l + 1` bytes from its first bit to its completion (R103). -/
theorem CanModulate.range_run {s : State} (h : CanModulate s) (a l : Nat) (hrange : a + (l + 1) ≤ 512) :
    ∃ u, runSteps ((l + 1) * (8 * s.cfg.spb.toNat)) (modAt a (l + 1) 0 s) = .next u ∧
      CompletedWith s (rangeSamples s a (l + 1)) u := by
  induction l generalizing s a with
  | zero =>
    obtain ⟨u, hrun, hend⟩ := h.lastByte_run a
    refine ⟨u, by rwa [Nat.zero_add, Nat.one_mul], ?_⟩
    rwa [rangeSamples_succ, rangeSamples_zero, List.append_nil]
  | succ l ih =>
    obtain ⟨u, hrun, hend⟩ := ih (h.emits (byteSamples s.cfg (s.bufByte a))) (a + 1) (by omega)
    refine ⟨u, ?_, ?_⟩
    · rw [Nat.succ_mul (l + 1), Nat.add_comm]
      exact runSteps_trans (h.byte_run a (l + 1) (by omega) (by omega)) hrun
    · rw [rangeSamples_succ]
      exact hend.after_emits

/-! ### An attention segment -/

/-- An ATTN with `n` iterations left in mode `z` (R43, R44). -/
def attnAt (n : Nat) (z : Bool) (s : State) : State :=
  { s with op := .attn, acnt := BitVec.ofNat 24 n, azero := z }

/-- The samples of `n` iterations: zeros in mode 1, none in mode 0 (R127). -/
def attnSamples (z : Bool) (n : Nat) : List Word := if z then List.replicate n silence else []

theorem attnSamples_succ (z : Bool) (n : Nat) : attnSamples z (n + 1) = attnSamples z 1 ++ attnSamples z n := by
  cases z <;> simp [attnSamples, List.replicate_succ]

/-- One iteration that is not the last (R127). -/
theorem attnAt_step {s : State} {z : Bool} (hagenda : s.agenda = []) (hready : z = true → s.sReady = true)
    {n : Nat} (hn : n + 1 < 2 ^ 24) :
    step (attnAt (n + 2) z s) = .next (attnAt (n + 1) z (s.emits (attnSamples z 1))) := by
  have hpred : BitVec.ofNat 24 (n + 1 + 1) - 1#24 = BitVec.ofNat 24 (n + 1) := ofNat_succ_sub_one 24 (n + 1)
  have hmore : BitVec.ofNat 24 (n + 1 + 1) - 1#24 ≠ 0#24 := by
    intro hzero
    have hnumber := congrArg BitVec.toNat (hpred.symm.trans hzero)
    rw [BitVec.toNat_ofNat, BitVec.toNat_ofNat] at hnumber
    omega
  refine EngineEffect.step_of_nil ?_ hagenda
  cases z with
  | true =>
    rw [attnAt, attnAt, ← hpred]
    exact .attnZero rfl rfl (hready rfl) hmore
  | false =>
    rw [attnSamples, if_neg Bool.false_ne_true, State.emits_nil, attnAt, attnAt, ← hpred]
    exact .attnSilent rfl rfl hmore

/-- The last iteration (R127, R153). -/
theorem attnAt_end {s : State} {z : Bool} (hagenda : s.agenda = []) (hready : z = true → s.sReady = true) :
    ∃ u, step (attnAt 1 z s) = .next u ∧ CompletedWith s (attnSamples z 1) u := by
  have hlast : BitVec.ofNat 24 1 - 1#24 = 0#24 := by decide
  cases z with
  | true => exact ⟨_, EngineEffect.step_of_nil (.attnZeroEnd rfl rfl (hready rfl) hlast) hagenda, rfl⟩
  | false =>
    refine ⟨_, EngineEffect.step_of_nil (.attnSilentEnd rfl rfl hlast) hagenda, ?_⟩
    rw [CompletedWith, attnSamples, if_neg Bool.false_ne_true, State.emits_nil]
    rfl

/-- An ATTN of `n + 1` iterations (R127). -/
theorem attnAt_run {s : State} {z : Bool} (hagenda : s.agenda = []) (hready : z = true → s.sReady = true)
    (n : Nat) (hn : n + 1 < 2 ^ 24) :
    ∃ u, runSteps (n + 1) (attnAt (n + 1) z s) = .next u ∧ CompletedWith s (attnSamples z (n + 1)) u := by
  induction n generalizing s with
  | zero =>
    obtain ⟨u, hstep, hend⟩ := attnAt_end hagenda hready
    exact ⟨u, by rw [runSteps_succ 0 _ u hstep, runSteps_zero], hend⟩
  | succ n ih =>
    obtain ⟨u, hrun, hend⟩ := ih (s := s.emits (attnSamples z 1)) hagenda hready (by omega)
    refine ⟨u, by rw [runSteps_succ _ _ _ (attnAt_step hagenda hready (by omega)), hrun], ?_⟩
    rw [attnSamples_succ]
    exact hend.after_emits

/-! ### Each command, from its dispatch to its completion -/

/-- The dispatch of `i` in `s` and the command's further steps end in a state that has its samples. -/
def RunsWhole (s : State) (i : Instr) : Prop :=
  ∃ t u, exec i s = .next t ∧ runSteps (commandSteps s.cfg i) t = .next u ∧
    CommandEnd s (commandSamples s i) u

/-- A MOD whose range is inside the buffer (R103). -/
theorem mod_runsWhole {s : State} (h : CanModulate s) (base : BitVec 9) (len : BitVec 10)
    (hrange : base.toNat + len.toNat ≤ 512) : RunsWhole s (.mod base len) := by
  by_cases hlen : len = 0#10
  · subst hlen
    have hend : CompletedWith s (rangeSamples s base.toNat 0) s.complete := completedWith_nil s
    exact ⟨_, _, exec_mod_zero base s, by simp [commandSteps], hend.commandEnd⟩
  · obtain ⟨l, hl⟩ := Nat.exists_eq_add_of_le' (one_le_toNat hlen)
    rw [hl] at hrange
    obtain ⟨u, hrun, hend⟩ := h.range_run base.toNat l hrange
    have hptr : modPtr base = BitVec.ofNat 10 base.toNat := by
      rw [← modPtr_toNat, BitVec.ofNat_toNat, BitVec.setWidth_eq]
    have hleft : len = BitVec.ofNat 10 (l + 1) := by rw [← hl, BitVec.ofNat_toNat, BitVec.setWidth_eq]
    refine ⟨_, u, exec_mod_of_ne_zero base hlen s, ?_, ?_⟩
    · rw [commandSteps, hl, Nat.mul_right_comm, Nat.mul_comm _ (l + 1), hptr, hleft]
      exact hrun
    · rw [commandSamples, hl]
      exact hend.commandEnd

/-- A BIT (R105). -/
theorem bit_runsWhole {s : State} (h : CanModulate s) (v : BitVec 1) : RunsWhole s (.bit v) := by
  have hstart : UnitStart { s with op := .bit, tone := v, k := 0#7 } (s.cfg.rom v) :=
    { samples := .inl ⟨.inr rfl, rfl⟩
      length := Config.rom_length _ h.table v
      first := rfl
      ready := h.ready
      agenda := h.agenda }
  obtain ⟨u, hrun, hend⟩ := hstart.run_completes (.inl rfl)
  have hend' : CompletedWith s (s.cfg.rom v) u := hend
  exact ⟨_, u, rfl, hrun, hend'.commandEnd⟩

/-- A SIL, for which no table is read (R126). -/
theorem sil_runsWhole {s : State} (hready : s.sReady = true) (hagenda : s.agenda = []) : RunsWhole s .sil := by
  have hstart : UnitStart { s with op := .sil, k := 0#7 } (List.replicate s.cfg.spb.toNat silence) :=
    { samples := .inr ⟨rfl, rfl⟩
      length := List.length_replicate
      first := rfl
      ready := hready
      agenda := hagenda }
  obtain ⟨u, hrun, hend⟩ := hstart.run_completes (.inr rfl)
  have hend' : CompletedWith s (List.replicate s.cfg.spb.toNat silence) u := hend
  exact ⟨_, u, rfl, hrun, hend'.commandEnd⟩

/-- An ATTN, which needs the sink only in mode 1 (R127). -/
theorem attn_runsWhole {s : State} (hagenda : s.agenda = []) (hready : s.attnZero = true → s.sReady = true)
    (d : BitVec 8) : RunsWhole s (.attn d) := by
  have hsamples : commandSamples s (.attn d) = attnSamples s.attnZero (d.toNat * fs) := rfl
  rw [RunsWhole, hsamples, commandSteps]
  by_cases hd : d = 0#8
  · subst hd
    have hnone : attnSamples s.attnZero 0 = [] := by cases s.attnZero <;> rfl
    rw [BitVec.toNat_ofNat, Nat.zero_mod, Nat.zero_mul, hnone]
    exact ⟨_, _, exec_attn_zero s, rfl, (completedWith_nil s).commandEnd⟩
  · have hseconds := one_le_toNat hd
    have hbound := d.isLt
    obtain ⟨n, hn⟩ : ∃ n, d.toNat * fs = n + 1 :=
      Nat.exists_eq_add_of_le' (Nat.mul_pos hseconds (by decide))
    have hsmall : n + 1 < 2 ^ 24 := by
      rw [← hn, fs]
      omega
    obtain ⟨u, hrun, hend⟩ := attnAt_run hagenda hready n hsmall
    rw [hn]
    refine ⟨_, u, exec_attn_of_ne_zero hd s, ?_, hend.commandEnd⟩
    rw [attnCount, hn]
    exact hrun

/-! ### The number of samples -/

theorem length_toneOfBit {c : Config} (h : c.wf = true) (b : Byte) (j : Nat) :
    (toneOfBit c b j).length = c.spb.toNat := Config.rom_length c h _

/-- Lists of one length, one after another. -/
theorem length_flatMap_range {f : Nat → List Word} {m : Nat} (hf : ∀ i, (f i).length = m) (n : Nat) :
    ((List.range n).flatMap f).length = n * m := by
  simp [List.length_flatMap, hf]

theorem length_byteSamples {c : Config} (h : c.wf = true) (b : Byte) :
    (byteSamples c b).length = 8 * c.spb.toNat :=
  length_flatMap_range (length_toneOfBit h b) 8

theorem length_rangeSamples {s : State} (h : s.cfg.wf = true) (a l : Nat) :
    (rangeSamples s a l).length = l * (8 * s.cfg.spb.toNat) :=
  length_flatMap_range (fun _ => length_byteSamples h _) l

/-! ### The four runs -/

/-- Settles O22: the whole MOD, its samples counted. -/
theorem modRunEmitsItsRange : Obligations.ModRunEmitsItsRange := by
  intro s base len hwf hready hagenda hrange
  obtain ⟨t, u, hexec, hrun, hend⟩ := mod_runsWhole ⟨hwf, hready, hagenda⟩ base len hrange
  refine ⟨t, u, hexec, hrun, hend.stream, ?_, hend.op, hend.queue, hend.done⟩
  rw [hend.scount, commandSamples, length_rangeSamples hwf, Nat.mul_left_comm, ← Nat.mul_assoc]

/-- Settles O24: the whole BIT; a row of a whole table has `SPB` entries. -/
theorem bitRunEmitsOneBitTone : Obligations.BitRunEmitsOneBitTone := by
  intro s v hwf hready hagenda
  obtain ⟨t, u, hexec, hrun, hend⟩ := bit_runsWhole ⟨hwf, hready, hagenda⟩ v
  have hlength := Config.rom_length s.cfg hwf v
  refine ⟨t, u, hexec, hrun, hend.stream, hlength, ?_, hend.op, hend.queue, hend.done⟩
  rw [hend.scount, commandSamples, bitToneSamples, hlength]

/-- Settles O25: the whole SIL, and the number of its samples in the fixed build. -/
theorem silRunEmitsOneSilenceUnit : Obligations.SilRunEmitsOneSilenceUnit := by
  intro s hready hagenda
  obtain ⟨t, u, hexec, hrun, hend⟩ := sil_runsWhole hready hagenda
  have hstream : u.stream = s.stream ++ List.replicate s.cfg.spb.toNat silence := hend.stream
  refine ⟨t, u, hexec, hrun, fun h84 => ?_, hstream, ?_, hend.op, hend.queue, hend.done⟩
  · rw [hstream, h84]
    rfl
  · rw [hend.scount, commandSamples, List.length_replicate]

/-- Settles O26: the whole ATTN in either mode. -/
theorem attnRunIsSilentOrZeros : Obligations.AttnRunIsSilentOrZeros := by
  intro s d hagenda hready
  obtain ⟨t, u, hexec, hrun, hend⟩ := attn_runsWhole hagenda hready d
  refine ⟨t, u, hexec, hrun, hend.stream, ?_, hend.op, hend.queue, hend.done⟩
  rw [hend.scount, commandSamples]
  split_ifs
  · rw [List.length_replicate, fs]
  · rfl

end Sys2Proof.Machine
end

section
/-! PROOF. The run of a whole queue (43_command_engine.md R155): its samples are those of its commands, in
order; and what follows for a MOD queued by a CMD write (41_afsk_modulator.md R106) and for eight BITs
(R105). -/

namespace Sys2Proof.Machine

/-! ### One command after another -/

/-- An idle engine that may dispatch whatever waits, on an accepting sink and with every turn (R151; log 1). -/
structure CanRunQueue (s : State) : Prop where
  table : s.cfg.wf = true
  op : s.op = .idle
  run : s.run = true
  err : s.err = false
  ready : s.sReady = true
  agenda : s.agenda = []

/-- Every command that is well formed runs from its dispatch to its completion. -/
theorem runsWhole_of_wellFormed {s : State} (h : CanModulate s) (i : Instr) (hwf : i.wellFormed = true) :
    RunsWhole s i := by
  cases i with
  | mod base len => exact mod_runsWhole h base len ((wellFormed_mod_iff base len).1 hwf)
  | bit v => exact bit_runsWhole h v
  | sil => exact sil_runsWhole h.ready h.agenda
  | attn d => exact attn_runsWhole h.agenda (fun _ => h.ready) d

/-- What a command stands for depends on the configuration, the buffer's bytes and the attention mode. -/
theorem commandSamples_congr {s t : State} (hcfg : t.cfg = s.cfg) (hbytes : ∀ a, t.bufByte a = s.bufByte a)
    (hmode : t.attnZero = s.attnZero) (i : Instr) : commandSamples t i = commandSamples s i := by
  cases i <;> simp only [commandSamples, rangeSamples, hcfg, hbytes, hmode]

/-- So does what a queue stands for. -/
theorem queueSamples_congr {s t : State} (hcfg : t.cfg = s.cfg) (hbytes : ∀ a, t.bufByte a = s.bufByte a)
    (hmode : t.attnZero = s.attnZero) (q : List Word) : queueSamples t q = queueSamples s q := by
  have hword (c : Word) : wordSamples t c = wordSamples s c := by
    unfold wordSamples
    cases decode c with
    | ok i => exact commandSamples_congr hcfg hbytes hmode i
    | error e => rfl
  rw [queueSamples, queueSamples, funext hword]

/-- A word that decodes stands for its command's samples. -/
theorem wordSamples_of_decode {c : Word} {i : Instr} (hd : decode c = .ok i) (s : State) :
    wordSamples s c = commandSamples s i := by
  simp only [wordSamples, hd]

/-- It takes the dispatch and the command's steps. -/
theorem wordSteps_of_decode {c : Word} {i : Instr} (hd : decode c = .ok i) (b : Config) :
    wordSteps b c = 1 + commandSteps b i := by
  simp only [wordSteps, hd]

/-- What a queue's run leaves to be read. -/
structure QueueEnd (s : State) (xs : List Word) (u : State) : Prop where
  stream : u.stream = s.stream ++ xs
  scount : u.scount = s.scount + BitVec.ofNat 32 xs.length
  queue : u.queue = []
  op : u.op = .idle
  done : u.done = (s.done || decide (s.queue ≠ []))

/-- The first command of a queue runs to its completion, and the engine can run the rest. -/
theorem CanRunQueue.head_run {s : State} (h : CanRunQueue s) {c : Word} {q : List Word}
    (hq : s.queue = c :: q) (hlegal : legalWord c = true) :
    ∃ u, runSteps (wordSteps s.cfg c) s = .next u ∧ CommandEnd { s with queue := q } (wordSamples s c) u ∧
      CanRunQueue u := by
  obtain ⟨i, hd⟩ := (legalWord_iff c).1 hlegal
  obtain ⟨-, hwf⟩ := decodedWordIsItsEncoding c i hd
  have hcan : s.canDispatch = true :=
    s.canDispatch_iff.2 ⟨h.op, h.run, h.err, by rw [hq]; exact List.cons_ne_nil c q⟩
  obtain ⟨t, u, hexec, hrun, hend⟩ :=
    runsWhole_of_wellFormed (s := { s with queue := q }) ⟨h.table, h.ready, h.agenda⟩ i hwf
  have hdispatch : step s = .next t :=
    (step_nil s h.agenda).trans ((engineStep_of_canDispatch hcan hq hd).trans hexec)
  refine ⟨u, ?_, wordSamples_of_decode hd s ▸ hend, ?_⟩
  · rw [wordSteps_of_decode hd, Nat.add_comm, runSteps_succ _ s t hdispatch]
    exact hrun
  · exact {
      table := by rw [hend.cfg]; exact h.table
      op := hend.op
      run := (congrArg (·.getLsbD 0) hend.ctrl).trans h.run
      err := hend.err.trans h.err
      ready := hend.sReady.trans h.ready
      agenda := hend.agenda.trans h.agenda }

/-- A queue of legal words runs to its end (R155), by induction over it. -/
theorem CanRunQueue.queue_run {s : State} (h : CanRunQueue s) (q : List Word) (hq : s.queue = q)
    (hlegal : ∀ c ∈ q, legalWord c = true) :
    ∃ u, runSteps (queueSteps s.cfg q) s = .next u ∧ QueueEnd s (queueSamples s q) u := by
  induction q generalizing s with
  | nil =>
    refine ⟨s, rfl, ?_⟩
    exact {
      stream := (List.append_nil _).symm
      scount := (BitVec.add_zero _).symm
      queue := hq
      op := h.op
      done := by rw [hq]; simp }
  | cons c q ih =>
    obtain ⟨t, hhead, hend, hcan⟩ := h.head_run hq (hlegal c List.mem_cons_self)
    obtain ⟨u, hrest, hdone⟩ := ih hcan hend.queue fun c' hc' => hlegal c' (List.mem_cons_of_mem c hc')
    have hmode : t.attnZero = s.attnZero := congrArg (·.getLsbD 1) hend.ctrl
    have hsamples : queueSamples t q = queueSamples s q :=
      queueSamples_congr hend.cfg hend.bufByte hmode q
    have hcount : t.scount = s.scount + BitVec.ofNat 32 (wordSamples s c).length := hend.scount
    have hstream : t.stream = s.stream ++ wordSamples s c := hend.stream
    have hfirst : t.done = (s.done || decide (q.length = 0)) := hend.done
    have hcons : queueSamples s (c :: q) = wordSamples s c ++ queueSamples s q := List.flatMap_cons
    refine ⟨u, runSteps_trans hhead (hend.cfg ▸ hrest), ?_⟩
    exact {
      stream := by rw [hdone.stream, hsamples, hstream, hcons, List.append_assoc]
      scount := by
        rw [hdone.scount, hsamples, hcount, hcons, List.length_append, BitVec.ofNat_add, BitVec.add_assoc]
      queue := hdone.queue
      op := hdone.op
      done := by
        have hqueue : t.queue = q := hend.queue
        rw [hdone.done, hfirst, hqueue, hq]
        cases q <;> simp }

/-- Settles O27: the invariant gives the whole table and the legal words. -/
theorem queueRunConcatenatesItsCommands : Obligations.QueueRunConcatenatesItsCommands := by
  intro s hs hop hrun herr hready hagenda
  obtain ⟨u, hsteps, hend⟩ :=
    CanRunQueue.queue_run ⟨hs.tableWf, hop, hrun, herr, hready, hagenda⟩ s.queue rfl hs.queueLegal
  exact ⟨u, hsteps, hend.stream, hend.scount, hend.queue, hend.op, hend.done⟩

/-! ### Eight BITs and a MOD of one byte -/

/-- The BITs of a byte's bits, least significant first (R105). -/
def bitWords (b : Byte) : List Word := (List.range 8).map fun j => encode (.bit (BitVec.ofBool (b.getLsbD j)))

theorem queueSamples_bitWords (s : State) (b : Byte) : queueSamples s (bitWords b) = byteSamples s.cfg b := by
  rw [queueSamples, bitWords, List.flatMap_map]
  exact congrArg (List.flatMap · (List.range 8)) (funext fun j => wordSamples_of_decode (decode_encode_bit _) s)

theorem queueSteps_bitWords (c : Config) (b : Byte) :
    queueSteps c (bitWords b) = 8 * (1 + c.spb.toNat) := by
  have hsteps (v : BitVec 1) : wordSteps c (encode (.bit v)) = 1 + c.spb.toNat :=
    wordSteps_of_decode (decode_encode_bit v) c
  simp only [queueSteps, bitWords, List.map_map, Function.comp_def, hsteps]
  rw [List.map_const', List.sum_replicate, List.length_range, smul_eq_mul]

/-- The encoding of a well-formed command is legal (R88). -/
theorem legalWord_encode {i : Instr} (hwf : i.wellFormed = true) : legalWord (encode i) = true :=
  (legalWord_iff_encode _).2 ⟨i, hwf, rfl⟩

/-- One MOD as the whole queue: its samples, and its steps with the dispatch. -/
theorem queue_of_mod {base : BitVec 9} {len : BitVec 10} (hwf : (Instr.mod base len).wellFormed = true)
    (s : State) (c : Config) :
    queueSamples s [encode (.mod base len)] = rangeSamples s base.toNat len.toNat ∧
      queueSteps c [encode (.mod base len)] = 1 + 8 * len.toNat * c.spb.toNat := by
  have hd := decode_encode_mod base len hwf
  rw [queueSamples, List.flatMap_singleton, wordSamples_of_decode hd, queueSteps, List.map_singleton,
    List.sum_singleton, wordSteps_of_decode hd]
  exact ⟨rfl, rfl⟩

/-- Settles O28: both queues stand for the samples of the byte. -/
theorem eightBitsEqualAModOfTheByte : Obligations.EightBitsEqualAModOfTheByte := by
  intro s a hwf hop hrun herr hready hagenda b bits
  have hcan (q : List Word) : CanRunQueue { s with queue := q } := ⟨hwf, hop, hrun, herr, hready, hagenda⟩
  have hbits : ∀ c ∈ bits, legalWord c = true := by
    intro c hc
    obtain ⟨j, -, rfl⟩ := List.mem_map.1 hc
    exact legalWord_encode rfl
  have hone : (Instr.mod a 1#10).wellFormed = true := by
    rw [wellFormed_mod_iff]
    have := a.isLt
    simp only [BitVec.toNat_ofNat]
    omega
  obtain ⟨u, hu, huend⟩ := (hcan bits).queue_run bits rfl hbits
  obtain ⟨v, hv, hvend⟩ := (hcan [encode (.mod a 1#10)]).queue_run _ rfl fun c hc =>
    List.mem_singleton.1 hc ▸ legalWord_encode hone
  obtain ⟨hmodSamples, hmodSteps⟩ :=
    queue_of_mod hone { s with queue := [encode (.mod a 1#10)] } s.cfg
  have hsame : queueSamples { s with queue := bits } bits =
      queueSamples { s with queue := [encode (.mod a 1#10)] } [encode (.mod a 1#10)] := by
    rw [hmodSamples]
    refine (queueSamples_bitWords _ b).trans ?_
    exact ((rangeSamples_succ _ _ 0).trans (List.append_nil _)).symm
  refine ⟨u, v, ?_, ?_, ?_, ?_, huend.op, hvend.op⟩
  · rw [← queueSteps_bitWords s.cfg b]
    exact hu
  · exact hmodSteps ▸ hv
  · rw [huend.stream, hvend.stream, hsame]
    rfl
  · rw [huend.scount, hvend.scount, hsame]

/-! ### The closed form of a MOD's samples -/

/-- In lists of one length, one after another, the place of an entry is its list and its index in it. -/
theorem getElem?_flatMap_range {f : Nat → List Word} {m : Nat} (hf : ∀ i, (f i).length = m)
    (l n : Nat) (hn : n < l * m) : ((List.range l).flatMap f)[n]? = (f (n / m))[n % m]? := by
  induction l with
  | zero => omega
  | succ l ih =>
    rw [List.range_succ, List.flatMap_append, List.flatMap_singleton]
    by_cases hlt : n < l * m
    · rw [List.getElem?_append_left (by rwa [length_flatMap_range hf]), ih hlt]
    · rw [List.getElem?_append_right (by rw [length_flatMap_range hf]; omega), length_flatMap_range hf]
      rw [Nat.succ_mul] at hn
      have hdiv : n / m = l := Nat.div_eq_of_lt_le (by omega) (by rw [Nat.succ_mul]; omega)
      have hmod : n % m = n - l * m := by
        rw [Nat.mod_def, hdiv, Nat.mul_comm]
      rw [hdiv, hmod]

/-- Sample `n` of a range at `SPB` = 84 (R106). -/
theorem rangeSamples_getElem? {s : State} (hwf : s.cfg.wf = true) (h84 : s.cfg.spb = .s84) (a l n : Nat)
    (hn : n < 672 * l) :
    (rangeSamples s a l)[n]? =
      (s.cfg.rom (BitVec.ofBool ((s.bufByte (a + n / 672)).getLsbD (n / 84 % 8))))[n % 84]? := by
  have htone (b : Byte) (j : Nat) : (toneOfBit s.cfg b j).length = 84 := by
    rw [length_toneOfBit hwf, h84, SamplesPerBit.toNat]
  have hbyte (b : Byte) : (byteSamples s.cfg b).length = 672 := by
    rw [length_byteSamples hwf, h84, SamplesPerBit.toNat]
  have hbit : n % 672 / 84 = n / 84 % 8 := by omega
  have hsample : n % 672 % 84 = n % 84 := by omega
  rw [rangeSamples, getElem?_flatMap_range (fun i => hbyte _) l n (by omega), byteSamples_eq,
    getElem?_flatMap_range (htone _) 8 _ (by omega), hbit, hsample, toneOfBit, bitToneSamples]

/-- Settles O23: the CMD write queues the MOD, which is then the whole queue of an unlocked engine. -/
theorem modSampleClosedForm : Obligations.ModSampleClosedForm := by
  intro s base len hs h84 hready hrun herr hunlocked hrange hagenda
  obtain ⟨hop, hempty⟩ := s.unlocked_iff.1 hunlocked
  have hwf : (Instr.mod base len).wellFormed = true := (wellFormed_mod_iff base len).2 hrange
  let queued : State := { s with agenda := [], queue := [encode (.mod base len)] }
  have hwrite : step s = .next queued := by
    have hstep := step_cmdWrite_of_legal s [] (encode (.mod base len)) (legalWord_encode hwf) (by simp [hempty])
    have hqueue : s.queue ++ [encode (.mod base len)] = [encode (.mod base len)] := by
      rw [hempty, List.nil_append]
    rw [← hagenda, hqueue] at hstep
    exact hstep
  have hcan : CanRunQueue queued := ⟨hs.tableWf, hop, hrun, herr, hready, rfl⟩
  obtain ⟨u, hsteps, hend⟩ := hcan.queue_run _ rfl fun c hc => List.mem_singleton.1 hc ▸ legalWord_encode hwf
  obtain ⟨hsamples, hcount⟩ := queue_of_mod hwf queued s.cfg
  have hstream : u.stream = s.stream ++ rangeSamples s base.toNat len.toNat := by
    rw [hend.stream, hsamples]
    rfl
  have hlength : (rangeSamples s base.toNat len.toNat).length = 672 * len.toNat := by
    rw [length_rangeSamples hs.tableWf, h84, SamplesPerBit.toNat]
    omega
  refine ⟨u, ?_, hend.op, ?_, fun n hn => ?_⟩
  · have hnumber : 1 + 8 * len.toNat * s.cfg.spb.toNat = 1 + 672 * len.toNat := by
      rw [h84, SamplesPerBit.toNat]
      omega
    rw [show 2 + 672 * len.toNat = 1 + 672 * len.toNat + 1 by omega, runSteps_succ _ s queued hwrite, ← hnumber,
      ← hcount]
    exact hsteps
  · rw [hstream, List.length_append, hlength]
  · rw [hstream, List.getElem?_append_right (Nat.le_add_right _ _), Nat.add_sub_cancel_left]
    exact rangeSamples_getElem? hs.tableWf h84 _ _ n hn

end Sys2Proof.Machine
end

section
/-! PROOF. The samples depend only on the queue, the buffer, the attention mode and the configuration
(R160, 10_state.md R40): two engines that agree on these take the same steps, whatever else their states
hold. -/

namespace Sys2Proof.Machine

/-- What the two states agree on and no engine turn changes. -/
structure SameSetting (s r : State) : Prop where
  cfg : r.cfg = s.cfg
  bytes : ∀ a, a < bufBytes → r.bufByte a = s.bufByte a
  run : r.run = s.run
  mode : r.attnZero = s.attnZero
  err : r.err = s.err
  ready : r.sReady = s.sReady

/-- The two engines run the same command at the same place, and the same commands wait: of the record only the
fields that the command uses need agree. -/
structure SameCommand (s r : State) : Prop where
  op : r.op = s.op
  queue : r.queue = s.queue
  range : s.op = .mod → r.ptr = s.ptr ∧ r.left = s.left ∧ r.cur = s.cur ∧ r.bitn = s.bitn
  tone : s.op = .mod ∨ s.op = .bit → r.tone = s.tone
  index : s.op = .mod ∨ s.op = .bit ∨ s.op = .sil → r.k = s.k
  count : s.op = .attn → r.acnt = s.acnt ∧ r.azero = s.azero

/-- The two states have received the same samples since `s` and `r`. -/
def SameSamples (s r t v : State) : Prop :=
  ∃ xs : List Word, t.received = xs ++ s.received ∧ v.received = xs ++ r.received

theorem sameSamples_none (s r : State) : SameSamples s r s r := ⟨[], rfl, rfl⟩

theorem SameSamples.trans {s r t v t' v' : State} (h : SameSamples s r t v) (h' : SameSamples t v t' v') :
    SameSamples s r t' v' := by
  obtain ⟨xs, ht, hv⟩ := h
  obtain ⟨ys, ht', hv'⟩ := h'
  exact ⟨ys ++ xs, by rw [ht', ht, List.append_assoc], by rw [hv', hv, List.append_assoc]⟩

/-- Idle engines use no field of the record. -/
theorem SameCommand.of_idle {s r : State} (hs : s.op = .idle) (hr : r.op = .idle) (hq : r.queue = s.queue) :
    SameCommand s r where
  op := hr.trans hs.symm
  queue := hq
  range := fun h => by cases hs.symm.trans h
  tone := fun h => by obtain h | h := h <;> cases hs.symm.trans h
  index := fun h => by obtain h | h | h := h <;> cases hs.symm.trans h
  count := fun h => by cases hs.symm.trans h

/-- The two engines dispatch alike (R151). -/
theorem SameCommand.canDispatch {s r : State} (h : SameCommand s r) (hset : SameSetting s r) :
    r.canDispatch = s.canDispatch := by
  rw [Bool.eq_iff_iff, r.canDispatch_iff, s.canDispatch_iff, h.op, hset.run, hset.err, h.queue]

/-- They offer alike (R22). -/
theorem SameCommand.sValid {s r : State} (h : SameCommand s r) : r.sValid = s.sValid := by
  rw [Bool.eq_iff_iff, r.sValid_iff, s.sValid_iff, h.op]
  by_cases hattn : s.op = .attn
  · rw [(h.count hattn).2]
  · simp [hattn]

/-- Their units end alike. -/
theorem SameCommand.unitGoesOn {s r : State} (h : SameCommand s r) (hset : SameSetting s r)
    (hop : s.op = .mod ∨ s.op = .bit ∨ s.op = .sil) : r.unitGoesOn = s.unitGoesOn := by
  rw [State.unitGoesOn, State.unitGoesOn, h.index hop, hset.cfg]

/-- Their tones have the same next sample (R46). -/
theorem SameCommand.rom {s r : State} (h : SameCommand s r) (hset : SameSetting s r)
    (hop : s.op = .mod ∨ s.op = .bit) :
    (r.cfg.rom r.tone)[r.k.toNat]? = (s.cfg.rom s.tone)[s.k.toNat]? := by
  rw [hset.cfg, h.tone hop, h.index (by tauto)]

/-- Each effect of one engine is an effect of the other, with the same sample and the same place after it. -/
theorem EngineEffect.same {s r t : State} (h : EngineEffect s t) (hset : SameSetting s r)
    (hcmd : SameCommand s r) : ∃ v, EngineEffect r v ∧ SameCommand t v ∧ SameSamples s r t v := by
  have hcan' (hcan : s.canDispatch = true) : r.canDispatch = true := (hcmd.canDispatch hset).trans hcan
  have hready (hr : s.sReady = true) : r.sReady = true := hset.ready.trans hr
  cases h with
  | rest hop hno =>
    exact ⟨r, .rest (hcmd.op.trans hop) ((hcmd.canDispatch hset).trans hno), hcmd, [], rfl, rfl⟩
  | wait hop hv hr =>
    exact ⟨r, .wait (hcmd.op ▸ hop) (hcmd.sValid.trans hv) (hset.ready.trans hr), hcmd, [], rfl, rfl⟩
  | emptyCommand hcan c q i hq hd hi =>
    exact ⟨_, .emptyCommand (hcan' hcan) c q i (hcmd.queue.trans hq) hd hi, .of_idle rfl rfl rfl, [], rfl, rfl⟩
  | dispatchMod hcan c q base len hq hd hl =>
    have hbyte : r.bufByte base.toNat = s.bufByte base.toNat := hset.bytes _ base.isLt
    refine ⟨_, .dispatchMod (hcan' hcan) c q base len (hcmd.queue.trans hq) hd hl, ?_, [], rfl, rfl⟩
    exact ⟨rfl, rfl, fun _ => ⟨rfl, rfl, hbyte, rfl⟩, fun _ => congrArg (bitTone · 0#3) hbyte, fun _ => rfl,
      by simp⟩
  | dispatchBit hcan c q v hq hd =>
    refine ⟨_, .dispatchBit (hcan' hcan) c q v (hcmd.queue.trans hq) hd, ?_, [], rfl, rfl⟩
    exact ⟨rfl, rfl, by simp, fun _ => rfl, fun _ => rfl, by simp⟩
  | dispatchSil hcan c q hq hd =>
    refine ⟨_, .dispatchSil (hcan' hcan) c q (hcmd.queue.trans hq) hd, ?_, [], rfl, rfl⟩
    exact ⟨rfl, rfl, by simp, by simp, fun _ => rfl, by simp⟩
  | dispatchAttn hcan c q d hq hd hz =>
    refine ⟨_, .dispatchAttn (hcan' hcan) c q d (hcmd.queue.trans hq) hd hz, ?_, [], rfl, rfl⟩
    exact ⟨rfl, rfl, by simp, by simp, by simp, fun _ => ⟨rfl, hset.mode⟩⟩
  | unitSample w hr hk hw =>
    have hop : s.op = .mod ∨ s.op = .bit ∨ s.op = .sil := by tauto
    have hw' : ((r.op = .mod ∨ r.op = .bit) ∧ (r.cfg.rom r.tone)[r.k.toNat]? = some w) ∨
        (r.op = .sil ∧ w = silence) := by
      rw [hcmd.op]
      exact hw.imp_left fun ⟨hop, hw⟩ => ⟨hop, (hcmd.rom hset hop).trans hw⟩
    refine ⟨_, .unitSample w (hready hr) ((hcmd.unitGoesOn hset hop).trans hk) hw', ?_, [w], rfl, rfl⟩
    exact ⟨hcmd.op, hcmd.queue, hcmd.range, hcmd.tone, fun hop => congrArg (· + 1#7) (hcmd.index hop),
      hcmd.count⟩
  | unitEnd w hr hk hw =>
    have hop : s.op = .mod ∨ s.op = .bit ∨ s.op = .sil := by tauto
    have hw' : (r.op = .bit ∧ (r.cfg.rom r.tone)[r.k.toNat]? = some w) ∨ (r.op = .sil ∧ w = silence) := by
      rw [hcmd.op]
      exact hw.imp_left fun ⟨hop, hw⟩ => ⟨hop, (hcmd.rom hset (.inr hop)).trans hw⟩
    exact ⟨_, .unitEnd w (hready hr) ((hcmd.unitGoesOn hset hop).trans hk) hw',
      .of_idle rfl rfl hcmd.queue, [w], rfl, rfl⟩
  | modNextBit w hop hr hk hw hb =>
    obtain ⟨hptr, hleft, hcur, hbitn⟩ := hcmd.range hop
    refine ⟨_, .modNextBit w (hcmd.op.trans hop) (hready hr) ((hcmd.unitGoesOn hset (.inl hop)).trans hk)
      ((hcmd.rom hset (.inl hop)).trans hw) (hbitn ▸ hb), ?_, [w], rfl, rfl⟩
    refine ⟨hcmd.op, hcmd.queue, fun _ => ⟨hptr, hleft, hcur, congrArg (· + 1#3) hbitn⟩, fun _ => ?_,
      fun _ => rfl, hcmd.count⟩
    simp only [hcur, hbitn]
  | modNextByte w hop hr hk hw hb hl hp =>
    obtain ⟨hptr, hleft, hcur, hbitn⟩ := hcmd.range hop
    have hbyte : r.bufByte (r.ptr + 1#10).toNat = s.bufByte (s.ptr + 1#10).toNat := by
      rw [hptr]
      exact hset.bytes _ hp
    refine ⟨_, .modNextByte w (hcmd.op.trans hop) (hready hr) ((hcmd.unitGoesOn hset (.inl hop)).trans hk)
      ((hcmd.rom hset (.inl hop)).trans hw) (hbitn ▸ hb) (hleft ▸ hl) (hptr ▸ hp), ?_, [w], rfl, rfl⟩
    exact ⟨hcmd.op, hcmd.queue, fun _ => ⟨congrArg (· + 1#10) hptr, congrArg (· - 1#10) hleft, hbyte, rfl⟩,
      fun _ => congrArg (bitTone · 0#3) hbyte, fun _ => rfl, hcmd.count⟩
  | modEnd w hop hr hk hw hb hl =>
    obtain ⟨-, hleft, -, hbitn⟩ := hcmd.range hop
    exact ⟨_, .modEnd w (hcmd.op.trans hop) (hready hr) ((hcmd.unitGoesOn hset (.inl hop)).trans hk)
      ((hcmd.rom hset (.inl hop)).trans hw) (hbitn ▸ hb) (hleft ▸ hl),
      .of_idle rfl rfl hcmd.queue, [w], rfl, rfl⟩
  | attnSilent hop hz ha =>
    obtain ⟨hacnt, hazero⟩ := hcmd.count hop
    exact ⟨_, .attnSilent (hcmd.op.trans hop) (hazero.trans hz) (hacnt ▸ ha), ⟨hcmd.op, hcmd.queue, hcmd.range,
      hcmd.tone, hcmd.index, fun _ => ⟨congrArg (· - 1#24) hacnt, hazero⟩⟩, [], rfl, rfl⟩
  | attnSilentEnd hop hz ha =>
    obtain ⟨hacnt, hazero⟩ := hcmd.count hop
    exact ⟨_, .attnSilentEnd (hcmd.op.trans hop) (hazero.trans hz) (hacnt ▸ ha),
      .of_idle rfl rfl hcmd.queue, [], rfl, rfl⟩
  | attnZero hop hz hr ha =>
    obtain ⟨hacnt, hazero⟩ := hcmd.count hop
    exact ⟨_, .attnZero (hcmd.op.trans hop) (hazero.trans hz) (hready hr) (hacnt ▸ ha), ⟨hcmd.op, hcmd.queue,
      hcmd.range, hcmd.tone, hcmd.index, fun _ => ⟨congrArg (· - 1#24) hacnt, hazero⟩⟩, [silence], rfl, rfl⟩
  | attnZeroEnd hop hz hr ha =>
    obtain ⟨hacnt, hazero⟩ := hcmd.count hop
    exact ⟨_, .attnZeroEnd (hcmd.op.trans hop) (hazero.trans hz) (hready hr) (hacnt ▸ ha),
      .of_idle rfl rfl hcmd.queue, [silence], rfl, rfl⟩

/-- The engine's turns keep what the two states agree on. -/
theorem SameSetting.after {s r t v : State} (h : SameSetting s r) (hs : EngineEffect s t)
    (hr : EngineEffect r v) : SameSetting t v where
  cfg := by rw [hs.keeps.cfg, hr.keeps.cfg, h.cfg]
  bytes := fun a ha => by rw [hs.bufByte, hr.bufByte, h.bytes a ha]
  run := by rw [State.run, State.run, hs.keeps.ctrl, hr.keeps.ctrl]; exact h.run
  mode := by rw [State.attnZero, State.attnZero, hs.keeps.ctrl, hr.keeps.ctrl]; exact h.mode
  err := by rw [hs.keeps.err, hr.keeps.err, h.err]
  ready := by rw [hs.keeps.sReady, hr.keeps.sReady, h.ready]

/-- Two engines that agree, each with every turn, add the same samples in any number of steps. -/
theorem SameCommand.runSteps_sameSamples (n : Nat) {s r u v : State} (hcmd : SameCommand s r)
    (hset : SameSetting s r) (hs : s.agenda = []) (hr : r.agenda = []) (hu : runSteps n s = .next u)
    (hv : runSteps n r = .next v) : SameSamples s r u v := by
  induction n generalizing s r with
  | zero =>
    cases hu
    cases hv
    exact sameSamples_none _ _
  | succ n ih =>
    obtain ⟨s', hstep, hrest⟩ := runSteps_succ_inv n s u hu
    obtain ⟨r', hstep', hrest'⟩ := runSteps_succ_inv n r v hv
    have heffect := engineStep_effect s s' ((step_nil s hs).symm.trans hstep)
    obtain ⟨r'', heffect', hcmd', hsamples⟩ := heffect.same hset hcmd
    obtain rfl : r'' = r' := Host.Outcome.next.inj ((heffect'.step_of_nil hr).symm.trans hstep')
    exact hsamples.trans (ih hcmd' (hset.after heffect heffect') (heffect.keeps.agenda.trans hs)
      (heffect'.keeps.agenda.trans hr) hrest hrest')

/-- Settles O29: the two idle engines agree, and stay so. -/
theorem samplesDependOnlyOnQueueBufferModeAndTable :
    Obligations.SamplesDependOnlyOnQueueBufferModeAndTable := by
  intro n s r u v hsop hrop hsrun hrrun hserr hrerr hsready hrready hs hr hqueue hbytes hmode hcfg hu hv
  have hset : SameSetting s r :=
    { cfg := hcfg.symm
      bytes := fun a ha => (hbytes a ha).symm
      run := hrrun.trans hsrun.symm
      mode := hmode.symm
      err := hrerr.trans hserr.symm
      ready := hrready.trans hsready.symm }
  obtain ⟨xs, hus, hvr⟩ :=
    (SameCommand.of_idle hsop hrop hqueue.symm).runSteps_sameSamples n hset hs hr hu hv
  refine ⟨xs.reverse, ?_, ?_⟩
  · rw [State.stream, State.stream, hus, List.reverse_append]
  · rw [State.stream, State.stream, hvr, List.reverse_append]

end Sys2Proof.Machine
end
